-- ==== Sys2Proof/Word.lean ====
section
/-! DEFINITION. The word types of the block (spec/00_scope.md R8, R9): every value is an unsigned bit vector, bit 0
least significant. -/

namespace Sys2Proof

/-- A byte: 8 bits (R8). -/
abbrev Byte := BitVec 8

/-- A 16-bit field: the CRC, LEN, OFF, WLEN and EXPLEN (R8). -/
abbrev Half := BitVec 16

/-- A host bus word: 32 bits (R8). -/
abbrev BusWord := BitVec 32

/-- A byte offset in the 4096-byte register space: 12 bits (R51). -/
abbrev Offset := BitVec 12

end Sys2Proof
end

