-- ==== Sys2Proof/Config.lean ====
section
/-! DEFINITION. What an implementation fixes (spec/00_scope.md R5, R7) and the free values of the spec
(spec/10_state.md R28, spec/70_reset_and_hazards.md R191). P_BASE (R6) is no constant here: it is an argument of
`Sys2Proof.selectOffset` in Decode.lean. -/

namespace Sys2Proof.Config

/-- The values `P_BUF_SIZE`, the number of bytes of BUF, may have in an implementation: the multiples of 4 from 260 to
3072 (R5). It is a parameter of the model: every operation that depends on it takes it as its argument `size`. -/
def legalSize (size : Nat) : Prop := size % 4 = 0 ∧ 260 ≤ size ∧ size ≤ 3072

/-- The value of `P_BUF_SIZE` for this hardware (R5), which an operation is given where no other is named (entry 1). -/
def bufSize : Nat := 512

/-- The size in bytes of the register space (R50). -/
def spaceSize : Nat := 4096

/-- The offset at which the BUF window starts (R42). -/
def windowBase : Nat := 0x400

/-- The constant the ID register reads (R32). -/
def idWord : BusWord := 0x4D424301

/-- `CRC_POLY`, the reflected polynomial mask (R7). -/
def crcPoly : Half := 0xA001

/-- `CRC_SEED`, the initial CRC value (R7). -/
def crcSeed : Half := 0xFFFF

/-- `EXC_LEN`, the total length of an exception response (R7). -/
def excLen : Nat := 5

/-- `FIXED_LEN`, the total length of the fixed request and response shapes (R7). -/
def fixedLen : Nat := 8

/-- `QTY_MIN` (R7). -/
def qtyMin : Nat := 1

/-- `QTY_MAX` (R7). -/
def qtyMax : Nat := 125

/-- `BC_MIN` (R7). -/
def bcMin : Nat := 1

/-- `BC_MAX` (R7). -/
def bcMax : Nat := 250

/-- `SLAVE_MAX`, the largest plausible slave id (R7). -/
def slaveMax : Nat := 247

/-- The read response overhead, 3 + 2 (R7). -/
def readOverhead : Nat := 5

/-- The write-multiple request overhead, 7 + 2 (R7). -/
def writeOverhead : Nat := 9

/-- FREE VALUE: what draw number `n` of an unwritten BUF byte gives (R28, U1; entry 3). It has no body: nothing says
what it is. -/
opaque freeByte : Nat → Byte

/-- FREE VALUE: whether draw number `n` leaves the NEW value in a BUF byte that an access cut short by reset was
writing (R191, U2; entry 8). It has no body. -/
opaque freeBit : Nat → Bool

end Sys2Proof.Config
end

