-- ==== Sys2Proof/Syntax.lean ====
section
/-! DEFINITION. The syntax of MBCRC-FSV: the host access (spec/20_memory.md R51), the names of the opcode map and the
register map (spec/30_encoding.md R73, spec/10_state.md section 4), the error codes (spec/60_exceptions.md R170),
`Instr` with one constructor per row of spec/opcode_table.json, and the assembly language of R78 and R79. -/

namespace Sys2Proof

/-- The direction of a host access (R51). -/
inductive Dir where
  | read
  | write
deriving DecidableEq, Repr

/-- A host access `(dir, offset, wdata)` (R51). `wdata` is ignored for a READ. -/
structure Access where
  dir    : Dir
  offset : Offset
  wdata  : BusWord
deriving DecidableEq, Repr

/-- The error codes of R170. -/
inductive ErrorCode where
  | eRsvd
  | eOpcode
  | eRange
  | eLenVal
  | eOverflow
  | eBus
deriving DecidableEq, Repr

/-- The defined opcodes of R73. -/
inductive Opcode where
  | nop
  | crcInit
  | crcByte
  | crcBuf
  | crcVerify
  | shapeLen
  | shapeLenAt
  | shapeCheck
  | frameCheck
  | bufClear
  | errClear
deriving DecidableEq, Repr

/-- The named registers of the register map (10_state.md section 4). -/
inductive Reg where
  | id
  | cmd
  | status
  | crc
  | len
  | off
  | wlen
  | result
  | push
  | cfg
deriving DecidableEq, Repr

/-- The instructions: one constructor per row of spec/opcode_table.json. The first eleven are the CMD format (R71),
each with its DATA field, which all but `crcByte` and `shapeLen` ignore (R72); the others are the BUS format (R74).
`k` is the number of a BUF window word (R42). -/
inductive Instr where
  | nop (data : Byte)
  | crcInit (data : Byte)
  | crcByte (data : Byte)
  | crcBuf (data : Byte)
  | crcVerify (data : Byte)
  | shapeLen (fc : Byte)
  | shapeLenAt (data : Byte)
  | shapeCheck (data : Byte)
  | frameCheck (data : Byte)
  | bufClear (data : Byte)
  | errClear (data : Byte)
  | wrCmd (cmd : BusWord)
  | wrLen (wdata : BusWord)
  | wrOff (wdata : BusWord)
  | wrWlen (wdata : BusWord)
  | wrPush (wdata : BusWord)
  | wrBuf (k : Nat) (wdata : BusWord)
  | wrIdIgnored (wdata : BusWord)
  | wrStatusIgnored (wdata : BusWord)
  | wrCrcIgnored (wdata : BusWord)
  | wrResultIgnored (wdata : BusWord)
  | wrCfgIgnored (wdata : BusWord)
  | rdId
  | rdCmd
  | rdStatus
  | rdCrc
  | rdLen
  | rdOff
  | rdWlen
  | rdResult
  | rdPush
  | rdCfg
  | rdBuf (k : Nat)
  | rsvdAccess (dir : Dir) (offset : Offset) (wdata : BusWord)
  | misaligned (dir : Dir) (offset : Offset) (wdata : BusWord)
deriving DecidableEq, Repr

/-- An encoded instruction in one of the two formats (R70): a 32-bit command word, or a host access. -/
inductive Code where
  | cmd (w : BusWord)
  | bus (a : Access)
deriving DecidableEq, Repr

/-- One line of the host-access assembly language: the instructions of R78, then the pseudo-instructions of R79
(entry 14). -/
inductive Asm where
  | write (r : Reg) (value : BusWord)
  | read (r : Reg)
  | writeBuf (k : Nat) (value : BusWord)
  | readBuf (k : Nat)
  | writeAt (offset : Offset) (value : BusWord)
  | readAt (offset : Offset)
  | command (op : Opcode) (data : Option Byte)
  | crcBytes (bs : List Byte)
  | pushBytes (bs : List Byte)
  | window (off wlen : BusWord)
deriving DecidableEq, Repr

end Sys2Proof
end

