-- ==== Sys2Proof/WellFormed.lean ====
section
/-! DEFINITION. Which terms of the syntax stand for an instruction: a BUF window word number lies in the window
(spec/10_state.md R42), a reserved access is at a reserved offset (R43), a misaligned access at a misaligned one
(spec/20_memory.md R52). Every other operand may take every value its field holds. -/

namespace Sys2Proof

/-- The offset is a multiple of 4 (R52). -/
def Offset.aligned (o : Offset) : Bool := o.toNat % 4 == 0

/-- The reserved offsets of R43: 0x028 to 0x3FC and 0x400 + `P_BUF_SIZE` to 0xFFC, word-aligned. -/
def Offset.reserved (o : Offset) (size : Nat := Config.bufSize) : Bool :=
  Offset.aligned o &&
    ((0x028 ≤ o.toNat && o.toNat ≤ 0x3FC) ||
      (Config.windowBase + size ≤ o.toNat && o.toNat ≤ 0xFFC))

/-- `k` numbers a word of the BUF window: 0 <= k < `P_BUF_SIZE`/4 (R42). -/
def windowWord (k : Nat) (size : Nat := Config.bufSize) : Bool := decide (k < size / 4)

/-- The check of each constructor. -/
def Instr.wellFormed (i : Instr) (size : Nat := Config.bufSize) : Bool :=
  match i with
  | .nop _ | .crcInit _ | .crcByte _ | .crcBuf _ | .crcVerify _ | .shapeLen _ | .shapeLenAt _ | .shapeCheck _
  | .frameCheck _ | .bufClear _ | .errClear _ => true
  | .wrCmd _ | .wrLen _ | .wrOff _ | .wrWlen _ | .wrPush _ => true
  | .wrBuf k _ => windowWord k size
  | .wrIdIgnored _ | .wrStatusIgnored _ | .wrCrcIgnored _ | .wrResultIgnored _ | .wrCfgIgnored _ => true
  | .rdId | .rdCmd | .rdStatus | .rdCrc | .rdLen | .rdOff | .rdWlen | .rdResult | .rdPush | .rdCfg => true
  | .rdBuf k => windowWord k size
  | .rsvdAccess _ o _ => Offset.reserved o size
  | .misaligned _ o _ => !Offset.aligned o

/-- The opcode takes its DATA field as an operand (R73). -/
def Opcode.usesData : Opcode → Bool
  | .crcByte | .shapeLen => true
  | .nop | .crcInit | .crcBuf | .crcVerify | .shapeLenAt | .shapeCheck | .frameCheck | .bufClear | .errClear => false

/-- A line of R78 or R79: a window word number lies in the window, and an opcode that uses DATA is written with it. -/
def Asm.wellFormed (l : Asm) (size : Nat := Config.bufSize) : Bool :=
  match l with
  | .write _ _ | .read _ => true
  | .writeBuf k _ | .readBuf k => windowWord k size
  | .writeAt _ _ | .readAt _ => true
  | .command op d => d.isSome || !op.usesData
  | .crcBytes _ | .pushBytes _ | .window _ _ => true

end Sys2Proof
end

