-- ==== Sys2Proof/Decode.lean ====
section
/-! DEFINITION. Decoding and encoding (spec/30_encoding.md). Two formats, two decoders (R70): `decodeAccess` for a
host access, total (R74), and `decodeCmd` for a command word, which rejects by name (R75). Then the encoder, the
opcode table's own numbering, and the expansion of the assembly language (R78, R79). -/

namespace Sys2Proof

/-! ## Fields -/

/-- `cmd[31:16]`, RSVD (R71). -/
def rsvdField (w : BusWord) : Half := w.extractLsb' 16 16

/-- `cmd[15:8]`, DATA (R71). -/
def dataField (w : BusWord) : Byte := w.extractLsb' 8 8

/-- `cmd[7:0]`, OP (R71). -/
def opField (w : BusWord) : Byte := w.extractLsb' 0 8

/-! ## The opcode map and the register map -/

/-- The value of OP (R73). -/
def Opcode.code : Opcode → Byte
  | .nop => 0x00
  | .crcInit => 0x01
  | .crcByte => 0x02
  | .crcBuf => 0x03
  | .crcVerify => 0x04
  | .shapeLen => 0x10
  | .shapeLenAt => 0x11
  | .shapeCheck => 0x12
  | .frameCheck => 0x13
  | .bufClear => 0x20
  | .errClear => 0x21

/-- The opcode of an OP value; none for a value not in R73. -/
def opcodeAt (op : Byte) : Option Opcode :=
  if op = 0x00 then some .nop
  else if op = 0x01 then some .crcInit
  else if op = 0x02 then some .crcByte
  else if op = 0x03 then some .crcBuf
  else if op = 0x04 then some .crcVerify
  else if op = 0x10 then some .shapeLen
  else if op = 0x11 then some .shapeLenAt
  else if op = 0x12 then some .shapeCheck
  else if op = 0x13 then some .frameCheck
  else if op = 0x20 then some .bufClear
  else if op = 0x21 then some .errClear
  else none

/-- The offset of a named register (10_state.md section 4). -/
def Reg.offset : Reg → Offset
  | .id => 0x000
  | .cmd => 0x004
  | .status => 0x008
  | .crc => 0x00C
  | .len => 0x010
  | .off => 0x014
  | .wlen => 0x018
  | .result => 0x01C
  | .push => 0x020
  | .cfg => 0x024

/-- The named register at an offset, if there is one (10_state.md section 4). -/
def regAt (o : Offset) : Option Reg :=
  if o = 0x000 then some .id
  else if o = 0x004 then some .cmd
  else if o = 0x008 then some .status
  else if o = 0x00C then some .crc
  else if o = 0x010 then some .len
  else if o = 0x014 then some .off
  else if o = 0x018 then some .wlen
  else if o = 0x01C then some .result
  else if o = 0x020 then some .push
  else if o = 0x024 then some .cfg
  else none

/-- The number k of the BUF window word at an aligned offset 0x400 + 4k, k < `P_BUF_SIZE`/4 (R42). -/
def windowWordAt (o : Offset) (size : Nat := Config.bufSize) : Option Nat :=
  if Config.windowBase ≤ o.toNat ∧ o.toNat < Config.windowBase + size then
    some ((o.toNat - Config.windowBase) / 4)
  else none

/-- The offset of BUF window word k (R42). -/
def windowOffset (k : Nat) : Offset := BitVec.ofNat 12 (Config.windowBase + 4 * k)

/-! ## The command decoder (R75) -/

/-- The instruction of an opcode with its DATA field (R73). -/
def Opcode.instr (d : Byte) : Opcode → Instr
  | .nop => .nop d
  | .crcInit => .crcInit d
  | .crcByte => .crcByte d
  | .crcBuf => .crcBuf d
  | .crcVerify => .crcVerify d
  | .shapeLen => .shapeLen d
  | .shapeLenAt => .shapeLenAt d
  | .shapeCheck => .shapeCheck d
  | .frameCheck => .frameCheck d
  | .bufClear => .bufClear d
  | .errClear => .errClear d

/-- The checks of R75 in their order: RSVD first, then OP. -/
def decodeCmd (w : BusWord) : Except ErrorCode Instr :=
  if rsvdField w ≠ 0 then .error .eRsvd
  else match opcodeAt (opField w) with
    | some op => .ok (op.instr (dataField w))
    | none => .error .eOpcode

/-! ## The access decoder (R74) -/

/-- A READ of a named register (R74). -/
def Reg.readInstr : Reg → Instr
  | .id => .rdId
  | .cmd => .rdCmd
  | .status => .rdStatus
  | .crc => .rdCrc
  | .len => .rdLen
  | .off => .rdOff
  | .wlen => .rdWlen
  | .result => .rdResult
  | .push => .rdPush
  | .cfg => .rdCfg

/-- A WRITE of a named register (R74). -/
def Reg.writeInstr (w : BusWord) : Reg → Instr
  | .id => .wrIdIgnored w
  | .cmd => .wrCmd w
  | .status => .wrStatusIgnored w
  | .crc => .wrCrcIgnored w
  | .len => .wrLen w
  | .off => .wrOff w
  | .wlen => .wrWlen w
  | .result => .wrResultIgnored w
  | .push => .wrPush w
  | .cfg => .wrCfgIgnored w

/-- The instruction of a host access: misalignment is checked before the offset is decoded (R52, R174), then the map
of R74. Total: every access is an instruction. -/
def decodeAccess (a : Access) (size : Nat := Config.bufSize) : Instr :=
  if Offset.aligned a.offset then
    match regAt a.offset, windowWordAt a.offset size, a.dir with
    | some r, _, .read => r.readInstr
    | some r, _, .write => r.writeInstr a.wdata
    | none, some k, .read => .rdBuf k
    | none, some k, .write => .wrBuf k a.wdata
    | none, none, d => .rsvdAccess d a.offset a.wdata
  else .misaligned a.dir a.offset a.wdata

/-- The instruction of an encoding in either format (R70). -/
def decode (c : Code) (size : Nat := Config.bufSize) : Except ErrorCode Instr :=
  match c with
  | .cmd w => decodeCmd w
  | .bus a => .ok (decodeAccess a size)

/-! ## The encoder -/

/-- The command word with RSVD = 0: `{zext_16(0), d[7:0], OP[7:0]}`, i.e. `(d << 8) OR OP` (R71, R79). -/
def cmdWord (op : Opcode) (d : Byte) : BusWord := (d.setWidth 32 <<< 8) ||| op.code.setWidth 32

/-- The access that writes `w` to a named register. -/
def writeTo (r : Reg) (w : BusWord) : Access := ⟨.write, r.offset, w⟩

/-- The access that reads a named register; its wdata, which the block ignores, is 0. -/
def readFrom (r : Reg) : Access := ⟨.read, r.offset, 0⟩

/-- The encoding of an instruction (R71, R73, R74, R80). -/
def encode : Instr → Code
  | .nop d => .cmd (cmdWord .nop d)
  | .crcInit d => .cmd (cmdWord .crcInit d)
  | .crcByte d => .cmd (cmdWord .crcByte d)
  | .crcBuf d => .cmd (cmdWord .crcBuf d)
  | .crcVerify d => .cmd (cmdWord .crcVerify d)
  | .shapeLen d => .cmd (cmdWord .shapeLen d)
  | .shapeLenAt d => .cmd (cmdWord .shapeLenAt d)
  | .shapeCheck d => .cmd (cmdWord .shapeCheck d)
  | .frameCheck d => .cmd (cmdWord .frameCheck d)
  | .bufClear d => .cmd (cmdWord .bufClear d)
  | .errClear d => .cmd (cmdWord .errClear d)
  | .wrCmd w => .bus (writeTo .cmd w)
  | .wrLen w => .bus (writeTo .len w)
  | .wrOff w => .bus (writeTo .off w)
  | .wrWlen w => .bus (writeTo .wlen w)
  | .wrPush w => .bus (writeTo .push w)
  | .wrBuf k w => .bus ⟨.write, windowOffset k, w⟩
  | .wrIdIgnored w => .bus (writeTo .id w)
  | .wrStatusIgnored w => .bus (writeTo .status w)
  | .wrCrcIgnored w => .bus (writeTo .crc w)
  | .wrResultIgnored w => .bus (writeTo .result w)
  | .wrCfgIgnored w => .bus (writeTo .cfg w)
  | .rdId => .bus (readFrom .id)
  | .rdCmd => .bus (readFrom .cmd)
  | .rdStatus => .bus (readFrom .status)
  | .rdCrc => .bus (readFrom .crc)
  | .rdLen => .bus (readFrom .len)
  | .rdOff => .bus (readFrom .off)
  | .rdWlen => .bus (readFrom .wlen)
  | .rdResult => .bus (readFrom .result)
  | .rdPush => .bus (readFrom .push)
  | .rdCfg => .bus (readFrom .cfg)
  | .rdBuf k => .bus ⟨.read, windowOffset k, 0⟩
  | .rsvdAccess d o w => .bus ⟨d, o, w⟩
  | .misaligned d o w => .bus ⟨d, o, w⟩

/-- The access by which the host issues an encoding: a command word is written to CMD (R33, R70). -/
def Code.access : Code → Access
  | .cmd w => writeTo .cmd w
  | .bus a => a

/-! ## The opcode table's numbering (R80; entry 11) -/

/-- The encoding whose bits are `w`, as the table numbers them: a row of at most 16 bits is a BUS row, whose 13-bit
key is dir (bit 12) and offset (bits 11 to 0), with wdata 0; a wider one is a CMD row, whose bits are the command
word. None where `w` does not fit its format. -/
def tableCode (nbits w : Nat) : Option Code :=
  if nbits ≤ 16 then
    if w < 0x2000 then
      some (.bus ⟨if w < 0x1000 then .read else .write, BitVec.ofNat 12 w, 0⟩)
    else none
  else if w < 0x100000000 then some (.cmd (BitVec.ofNat 32 w))
  else none

/-- The instruction the decoder reads from a word of the opcode table. -/
def decodeTableWord (nbits w : Nat) : Option Instr :=
  match tableCode nbits w with
  | some c => (decode c).toOption
  | none => none

/-- The access that presents a word of the opcode table to the block; a word that fits no format is presented as a
write of its low 32 bits to CMD. -/
def tableAccess (nbits w : Nat) : Access :=
  match tableCode nbits w with
  | some c => c.access
  | none => writeTo .cmd (BitVec.ofNat 32 w)

/-! ## The host's address map (R6, R50, R59, R182; entry 2) -/

/-- The offset at which a host address selects the block whose register space starts at `pBase`, if it does. -/
def selectOffset (pBase addr : Nat) : Option Offset :=
  if pBase ≤ addr ∧ addr < pBase + Config.spaceSize then some (BitVec.ofNat 12 (addr - pBase)) else none

/-- The host address of an offset. -/
def hostAddress (pBase : Nat) (o : Offset) : Nat := pBase + o.toNat

/-! ## The assembly language (R78, R79; entry 14) -/

/-- The accesses a line stands for, in order. -/
def Asm.expand : Asm → List Access
  | .write r v => [writeTo r v]
  | .read r => [readFrom r]
  | .writeBuf k v => [⟨.write, windowOffset k, v⟩]
  | .readBuf k => [⟨.read, windowOffset k, 0⟩]
  | .writeAt o v => [⟨.write, o, v⟩]
  | .readAt o => [⟨.read, o, 0⟩]
  | .command op none => [writeTo .cmd (op.code.setWidth 32)]
  | .command op (some d) => [writeTo .cmd (cmdWord op d)]
  | .crcBytes bs => bs.map fun b => writeTo .cmd (cmdWord .crcByte b)
  | .pushBytes bs => bs.map fun b => writeTo .push (b.setWidth 32)
  | .window o n => [writeTo .off o, writeTo .wlen n]

end Sys2Proof
end

