-- ==== Sys2Proof/Machine/State.lean ====
section
/-! DEFINITION. The state of the block (spec/10_state.md R20: "exactly these elements, and nothing else"), the host's
side of it, and the reasons a step can stop. -/

namespace Sys2Proof.Machine

/-- The bus response (spec/20_memory.md R51, spec/60_exceptions.md R173). -/
inductive Resp where
  | ok
  | err
deriving DecidableEq, Repr

/-- The answer `(rdata, resp)` to one access (R51). -/
structure Response where
  rdata : BusWord
  resp  : Resp
deriving DecidableEq, Repr

/-- What the host can do to the block: an access (R51), reset between accesses
(spec/70_reset_and_hazards.md R190), or reset asserted while the block performs an access (R191). -/
inductive HostEvent where
  | access (a : Access)
  | reset
  | resetDuring (a : Access)
deriving DecidableEq, Repr

/-- BUF (R28): the (index, byte) pairs of the bytes written since power-up, indices strictly rising. An index that is
not listed has not been written, and reads as a free value (entry 3). -/
abbrev Memory := List Host.Cell

/-- Why the block stops: it never does in a state with LEN <= `P_BUF_SIZE` (R29, R66, R199). -/
inductive Fault where
  /-- Raised by an operation that would read or write BUF at an index that does not exist (R10: `MemRead(a, 1)` is
  given for `a < P_BUF_SIZE`). Only a state with LEN > `P_BUF_SIZE`, or an ill-formed window word number, raises it.
  SAFE: no run reaches such a state, and nothing is concluded of it (entry 9). -/
  | bufIndexOutOfRange
deriving DecidableEq, Repr

/-- Why an instruction has no meaning. -/
inductive Refusal where
  /-- Raised by `exec` for an instruction that has no meaning yet, by its mnemonic. SAFE. No arm raises it. -/
  | notModelled (mnemonic : String)
deriving DecidableEq, Repr

/-- The state. The first eleven fields are the architectural state of R20; the last three are the model's own. -/
structure State where
  /-- CRC, the running accumulator (R22). -/
  crc : Half
  /-- LEN, the number of valid bytes in BUF (R23). -/
  len : Half
  /-- OFF, where a command's window or view starts (R24). -/
  off : Half
  /-- WLEN, the length of a command's window (R25). -/
  wlen : Half
  /-- RESULT.EXPLEN (R26). -/
  expLen : Half
  /-- RESULT.LEN_VALID (R26). -/
  lenValid : Bool
  /-- RESULT.CRC_OK (R26). -/
  crcOk : Bool
  /-- RESULT.SHAPE_OK (R26). -/
  shapeOk : Bool
  /-- STATUS.LAST_ERR (R27). -/
  lastErr : Bool
  /-- STATUS.ERRCODE (R27). -/
  errCode : BitVec 4
  /-- BUF (R28). -/
  buf : Memory
  /-- MODEL'S OWN: how many free values have been drawn (entries 3, 4). -/
  draws : Nat
  /-- MODEL'S OWN: the host events the block has not received yet, in receive order (R61; entry 5). -/
  pending : List HostEvent
  /-- MODEL'S OWN: the answers given so far, newest first; a run shows their sequence (R12; entry 6). -/
  responses : List Response
deriving DecidableEq, Repr

/-- The state after power-up and reset (R190, R20): every register at its reset value, no byte of BUF written. -/
def State.reset : State where
  crc := 0xFFFF
  len := 0
  off := 0
  wlen := 0
  expLen := 0
  lenValid := false
  crcOk := false
  shapeOk := false
  lastErr := false
  errCode := 0
  buf := []
  draws := 0
  pending := []
  responses := []

end Sys2Proof.Machine
end

