-- ==== Sys2Proof/Machine/Ops.lean ====
section
/-! DEFINITION. The named operations over BUF and the registers: `MemRead` and `MemWrite`
(spec/00_scope.md R10), `respond` (R10, spec/20_memory.md R51), `raise Reject` (spec/60_exceptions.md R171), the end
of a counted operation (R172), and reset (spec/70_reset_and_hazards.md R190, R191).

Rejection is this block's form of taking an exception: it transfers no control and saves nothing but STATUS (R176).
There is no return from it (R177). -/

namespace Sys2Proof.Machine

/-! ## BUF -/

/-- The byte written at index `a`, if one has been since power-up (R28). -/
def Memory.read? : Memory → Nat → Option Byte
  | [], _ => none
  | (x, b) :: m, a => if x = a then some b else Memory.read? m a

/-- `MemWrite(a, 1, b)` (R10), keeping the indices strictly rising. -/
def Memory.write : Memory → Nat → Byte → Memory
  | [], a, b => [(a, b)]
  | (x, c) :: m, a, b =>
    if a < x then (a, b) :: (x, c) :: m
    else if a = x then (a, b) :: m
    else (x, c) :: Memory.write m a b

/-- The bytes `bs` written from index `a` on, lowest index first. -/
def Memory.writeBytes : Memory → Nat → List Byte → Memory
  | m, _, [] => m
  | m, a, b :: bs => Memory.writeBytes (Memory.write m a b) (a + 1) bs

/-- Every listed index is at least `lo`, and the indices are strictly rising. -/
def Memory.rising : Nat → Memory → Bool
  | _, [] => true
  | lo, (x, _) :: m => decide (lo ≤ x) && Memory.rising (x + 1) m

/-- The canonical form: indices strictly rising, each an index of BUF (R28). An unlisted index reads as a free value,
so no entry can equal it and none is left out for that (entry 7). -/
def Memory.wf (m : Memory) (size : Nat := Config.bufSize) : Bool :=
  Memory.rising 0 m && m.all fun c => decide (c.1 < size)

/-- What one reading operation sees of BUF from index `a` on: `W(k)` is the byte at index `a + k` (R120), and a free
draw where none has been written (R28; entry 3). -/
def State.view (s : State) (a : Nat) : Nat → Byte := fun k =>
  match Memory.read? s.buf (a + k) with
  | some b => b
  | none => Config.freeByte (s.draws + k)

/-- The draws of a reading operation over `n` bytes are used up: the next operation draws afresh (R28; entry 3). -/
def State.drew (s : State) (n : Nat) : State := { s with draws := s.draws + n }

/-- The bytes `BUF[a .. a+n-1]` exist (R10); `k` is what the operation then does (entry 9). -/
def inBuf (a n : Nat) (k : Host.Outcome State Fault Refusal) (size : Nat := Config.bufSize) :
    Host.Outcome State Fault Refusal :=
  if a + n ≤ size then k else .fault .bufIndexOutOfRange

/-! ## Responses and errors -/

/-- `respond(data, resp)` (R10): the access is answered. -/
def State.respond (s : State) (data : BusWord) (r : Resp) : State :=
  { s with responses := ⟨data, r⟩ :: s.responses }

/-- The value an error code records (R170). -/
def ErrorCode.value : ErrorCode → BitVec 4
  | .eRsvd => 1
  | .eOpcode => 2
  | .eRange => 3
  | .eLenVal => 4
  | .eOverflow => 5
  | .eBus => 6

/-- `raise Reject(code)` (R171): LAST_ERR is set, and the first error since the last clear is kept. -/
def State.reject (s : State) (code : ErrorCode) : State :=
  { s with lastErr := true, errCode := if s.errCode = 0 then ErrorCode.value code else s.errCode }

/-- The end of a counted operation that completes without rejection (R172): LAST_ERR is cleared. -/
def State.counted (s : State) : State := { s with lastErr := false }

/-- A counted aligned write that completes: STATUS as R172 says, then `respond(0, OK)` (R51, R173). -/
def complete (s : State) : Host.Outcome State Fault Refusal := .next (s.counted.respond 0 .ok)

/-- A counted aligned write that is rejected: STATUS as R171 says, and still `respond(0, OK)` (R173). -/
def rejectWrite (code : ErrorCode) (s : State) : Host.Outcome State Fault Refusal :=
  .next ((s.reject code).respond 0 .ok)

/-- An aligned read (R158): the data and OK; no architectural state changes. -/
def answer (data : BusWord) (s : State) : Host.Outcome State Fault Refusal := .next (s.respond data .ok)

/-! ## Reset -/

/-- The reset input between accesses (R190): every register takes its reset value; BUF is not written. -/
def State.warmReset (s : State) : State :=
  { s with
    crc := State.reset.crc, len := State.reset.len, off := State.reset.off, wlen := State.reset.wlen
    expLen := State.reset.expLen, lenValid := State.reset.lenValid, crcOk := State.reset.crcOk
    shapeOk := State.reset.shapeOk, lastErr := State.reset.lastErr, errCode := State.reset.errCode }

/-- Bytes `bs` that an access cut short by reset was writing from index `a` on: each holds its old or its new value,
drawn per byte (R191, U2; entry 8). -/
def State.tear : State → Nat → List Byte → State
  | s, _, [] => s
  | s, a, b :: bs =>
    State.tear
      { s with
        buf := if Config.freeBit s.draws then Memory.write s.buf a b else s.buf
        draws := s.draws + 1 }
      (a + 1) bs

end Sys2Proof.Machine
end

