-- ==== Sys2Proof/Machine/Operands.lean ====
section
/-! DEFINITION. The operand forms (spec/30_encoding.md R72): the fields of wdata each register takes, the bytes of a
BUF window word (spec/20_memory.md R54), and the implicit window and view of the commands with their range checks
(spec/41_shape.md R120, spec/60_exceptions.md R175). -/

namespace Sys2Proof.Machine

/-- `wdata[15:0]`, what LEN, OFF and WLEN take (R36 to R38). -/
def lowHalf (w : BusWord) : Half := w.extractLsb' 0 16

/-- `wdata[7:0]`, what PUSH takes (R40). -/
def lowByte (w : BusWord) : Byte := w.extractLsb' 0 8

/-- The four bytes of a BUF window word, in the order of their indices: bits [8i+7 : 8i] for i = 0 to 3 (R54). -/
def windowBytes (w : BusWord) : List Byte :=
  [w.extractLsb' 0 8, w.extractLsb' 8 8, w.extractLsb' 16 8, w.extractLsb' 24 8]

/-- The word of four BUF bytes, `{W(3), W(2), W(1), W(0)}` (R54). -/
def windowValue (W : Nat → Byte) : BusWord :=
  ((W 3).setWidth 32 <<< 24) ||| ((W 2).setWidth 32 <<< 16) ||| ((W 1).setWidth 32 <<< 8) ||| (W 0).setWidth 32

/-- The start index of a window or view, OFF (R24), as an unbounded natural (R11). -/
def State.start (s : State) : Nat := s.off.toNat

/-- The length of a window, WLEN (R25), as an unbounded natural (R11). -/
def State.windowLen (s : State) : Nat := s.wlen.toNat

/-- The valid bytes from OFF on, LEN - OFF (R120). -/
def State.avail (s : State) : Nat := s.len.toNat - s.off.toNat

/-- A window command (CRC_BUF, CRC_VERIFY, SHAPE_CHECK, FRAME_CHECK): E_RANGE when OFF + WLEN > LEN, without wrap
(R175), and its effect `f` otherwise. -/
def windowCommand (f : State → State) (s : State) (size : Nat := Config.bufSize) :
    Host.Outcome State Fault Refusal :=
  if s.start + s.windowLen > s.len.toNat then rejectWrite .eRange s
  else inBuf s.start s.windowLen (complete (f s)) size

/-- A shape-length command (SHAPE_LEN, SHAPE_LEN_AT): E_RANGE when OFF > LEN (R175), and its effect `f` otherwise. -/
def viewCommand (f : State → State) (s : State) (size : Nat := Config.bufSize) :
    Host.Outcome State Fault Refusal :=
  if s.start > s.len.toNat then rejectWrite .eRange s
  else inBuf s.start s.avail (complete (f s)) size

end Sys2Proof.Machine
end

