-- ==== Sys2Proof/Machine/Flags.lean ====
section
/-! DEFINITION. The flags and the words they are read in (spec/10_state.md R26, R27, R30, R34, R39), and how a
result sets them. LAST_ERR and ERRCODE are set by `State.reject` and `State.counted` in Ops.lean. -/

namespace Sys2Proof.Machine

/-- STATUS reads `{zext_24(0), ERRCODE[3:0], 000b, LAST_ERR}` (R34). -/
def State.statusWord (s : State) : BusWord :=
  (s.errCode.setWidth 32 <<< 4) ||| (BitVec.ofBool s.lastErr).setWidth 32

/-- RESULT reads `{zext_13(0), SHAPE_OK, CRC_OK, LEN_VALID, EXPLEN[15:0]}` (R39). -/
def State.resultWord (s : State) : BusWord :=
  ((BitVec.ofBool s.shapeOk).setWidth 32 <<< 18) ||| ((BitVec.ofBool s.crcOk).setWidth 32 <<< 17) |||
    ((BitVec.ofBool s.lenValid).setWidth 32 <<< 16) ||| s.expLen.setWidth 32

/-- The result `some n` or `none` of a shape-length command in (LEN_VALID, EXPLEN) (R26, R129). -/
def State.setLength (s : State) : Option Nat → State
  | some n => { s with expLen := BitVec.ofNat 16 n, lenValid := true }
  | none => { s with expLen := 0, lenValid := false }

/-- CRC_OK takes the boolean of `Verify` (R26). -/
def State.setCrcOk (s : State) (b : Bool) : State := { s with crcOk := b }

/-- SHAPE_OK takes the boolean of `IsPlausibleShape` (R26). -/
def State.setShapeOk (s : State) (b : Bool) : State := { s with shapeOk := b }

end Sys2Proof.Machine
end

