-- ==== Sys2Proof/Machine/Crc.lean ====
section
/-! DEFINITION. The CRC-16/Modbus generator (spec/40_crc.md): the primitives R100 to R102, and CRC_INIT, CRC_BYTE,
CRC_BUF and CRC_VERIFY (R104 to R107). A command's meaning is that of the CMD write that issues it, with its answer
(entry 11). -/

namespace Sys2Proof.Machine

/-! ## Primitives -/

/-- One iteration of R100: shift right by one, and fold in the polynomial if the bit shifted out is 1. -/
def crcBit (c : Half) : Half := if c.getLsbD 0 then (c >>> 1) ^^^ Config.crcPoly else c >>> 1

/-- `n` iterations of R100. -/
def crcBits : Nat → Half → Half
  | 0, c => c
  | n + 1, c => crcBits n (crcBit c)

/-- `crc_step(c, b)` (R100): the byte enters the low 8 bits, then 8 iterations. -/
def crcStep (c : Half) (b : Byte) : Half := crcBits 8 (c ^^^ b.setWidth 16)

/-- `crc_compute` (R101) over the first `n` bytes of a view. -/
def crcCompute (W : Nat → Byte) : Nat → Half
  | 0 => Config.crcSeed
  | n + 1 => crcStep (crcCompute W n) (W n)

/-- `crcLo = c[7:0]` (R56, R103). -/
def crcLo (c : Half) : Byte := c.extractLsb' 0 8

/-- `crcHi = c[15:8]` (R56, R103). -/
def crcHi (c : Half) : Byte := c.extractLsb' 8 8

/-- `crc_verify` (R102) of the `n`-byte frame that a view starts with. -/
def crcVerify (W : Nat → Byte) (n : Nat) : Bool :=
  if n < 2 then false
  else
    let c := crcCompute W (n - 2)
    W (n - 2) == crcLo c && W (n - 1) == crcHi c

/-! ## Effects -/

/-- CRC takes `crc_compute` of the first `n` bytes of the window (R106, R107). -/
def State.computeCrc (s : State) (n : Nat) : State :=
  { s with crc := crcCompute (s.view s.start) n }.drew n

/-- The effect CRC_VERIFY and FRAME_CHECK share (R107, R132): `crc_compute` and `crc_verify` are two operations, each
of which reads BUF (entry 10). -/
def State.verifyWindow (s : State) : State :=
  if s.windowLen < 2 then s.setCrcOk false
  else
    let t := s.computeCrc (s.windowLen - 2)
    (t.setCrcOk (crcVerify (t.view t.start) t.windowLen)).drew t.windowLen

/-! ## Instructions -/

/-- CRC_INIT (R104). -/
def execCrcInit (_data : Byte) (s : State) : Host.Outcome State Fault Refusal :=
  complete { s with crc := Config.crcSeed }

/-- CRC_BYTE (R105). -/
def execCrcByte (data : Byte) (s : State) : Host.Outcome State Fault Refusal :=
  complete { s with crc := crcStep s.crc data }

/-- CRC_BUF (R106). -/
def execCrcBuf (_data : Byte) (s : State) (size : Nat := Config.bufSize) : Host.Outcome State Fault Refusal :=
  windowCommand (fun s => s.computeCrc s.windowLen) s size

/-- CRC_VERIFY (R107). -/
def execCrcVerify (_data : Byte) (s : State) (size : Nat := Config.bufSize) : Host.Outcome State Fault Refusal :=
  windowCommand State.verifyWindow s size

end Sys2Proof.Machine
end

