-- ==== Sys2Proof/Machine/Shape.lean ====
section
/-! DEFINITION. The Modbus frame-shape validator (spec/41_shape.md): the primitives R121 to R127, and SHAPE_LEN,
SHAPE_LEN_AT, SHAPE_CHECK and FRAME_CHECK (R129 to R132). In a primitive, `W` is the byte view of R120 and `avail` the
number of bytes it may read. -/

namespace Sys2Proof.Machine

/-! ## Primitives -/

/-- Exception responses (R121): length 5 if it fits. -/
def exceptionLen (avail : Nat) : Option Nat := if Config.excLen ≤ avail then some Config.excLen else none

/-- `{W(4), W(5)}`, the quantity of a read request, high byte first (R56). -/
def quantity (W : Nat → Byte) : Nat := (W 4).toNat * 256 + (W 5).toNat

/-- Reads, function codes 1 to 4 (R122): the 8-byte request if it fits and its quantity is plausible, else the
response if its byte count is plausible and it fits. -/
def readLen (W : Nat → Byte) (avail : Nat) : Option Nat :=
  if Config.fixedLen ≤ avail ∧ Config.qtyMin ≤ quantity W ∧ quantity W ≤ Config.qtyMax then some Config.fixedLen
  else if 3 ≤ avail ∧ Config.bcMin ≤ (W 2).toNat ∧ (W 2).toNat ≤ Config.bcMax
      ∧ Config.readOverhead + (W 2).toNat ≤ avail then some (Config.readOverhead + (W 2).toNat)
  else none

/-- Single writes, function codes 5 and 6 (R123). -/
def singleWriteLen (avail : Nat) : Option Nat := if Config.fixedLen ≤ avail then some Config.fixedLen else none

/-- Multiple writes, function codes 15 and 16 (R124): the request if its byte count is plausible and it fits, else
the 8-byte response if it fits. -/
def multiWriteLen (W : Nat → Byte) (avail : Nat) : Option Nat :=
  if 7 ≤ avail ∧ Config.bcMin ≤ (W 6).toNat ∧ (W 6).toNat ≤ Config.bcMax
      ∧ Config.writeOverhead + (W 6).toNat ≤ avail then some (Config.writeOverhead + (W 6).toNat)
  else if Config.fixedLen ≤ avail then some Config.fixedLen
  else none

/-- `expected_len` (R126), with R121's test before every other and R125 last. -/
def expectedLen (fc : Byte) (W : Nat → Byte) (avail : Nat) : Option Nat :=
  if fc.getLsbD 7 then exceptionLen avail
  else if fc = 1 ∨ fc = 2 ∨ fc = 3 ∨ fc = 4 then readLen W avail
  else if fc = 5 ∨ fc = 6 then singleWriteLen avail
  else if fc = 15 ∨ fc = 16 then multiWriteLen W avail
  else none

/-- The result of SHAPE_LEN_AT (R130): the function code is byte 1 of the view, and there is none below 2 bytes. -/
def expectedLenAt (W : Nat → Byte) (avail : Nat) : Option Nat :=
  if avail < 2 then none else expectedLen (W 1) W avail

/-- `plausible_shape` (R127) of the `n`-byte frame that a view starts with. -/
def plausibleShape (W : Nat → Byte) (n : Nat) : Bool :=
  if n < 2 then false
  else if (W 0).toNat > Config.slaveMax then false
  else expectedLen (W 1) W n == some n

/-! ## Effects -/

/-- SHAPE_OK takes `plausible_shape` of the window (R131, R132). -/
def State.checkShape (s : State) : State :=
  (s.setShapeOk (plausibleShape (s.view s.start) s.windowLen)).drew s.windowLen

/-! ## Instructions -/

/-- SHAPE_LEN (R129): the function code is the DATA field. -/
def execShapeLen (fc : Byte) (s : State) (size : Nat := Config.bufSize) : Host.Outcome State Fault Refusal :=
  viewCommand (fun s => (s.setLength (expectedLen fc (s.view s.start) s.avail)).drew s.avail) s size

/-- SHAPE_LEN_AT (R130). -/
def execShapeLenAt (_data : Byte) (s : State) (size : Nat := Config.bufSize) : Host.Outcome State Fault Refusal :=
  viewCommand (fun s => (s.setLength (expectedLenAt (s.view s.start) s.avail)).drew s.avail) s size

/-- SHAPE_CHECK (R131). -/
def execShapeCheck (_data : Byte) (s : State) (size : Nat := Config.bufSize) : Host.Outcome State Fault Refusal :=
  windowCommand State.checkShape s size

/-- FRAME_CHECK (R132): SHAPE_CHECK and CRC_VERIFY on the same window. -/
def execFrameCheck (_data : Byte) (s : State) (size : Nat := Config.bufSize) : Host.Outcome State Fault Refusal :=
  windowCommand (fun s => s.checkShape.verifyWindow) s size

end Sys2Proof.Machine
end

