-- ==== Sys2Proof/Machine/Control.lean ====
section
/-! DEFINITION. Buffer and error control (spec/42_control.md): NOP, BUF_CLEAR and ERR_CLEAR (R150 to R152), and the
CMD write that decodes a command word and runs it, or rejects it (spec/30_encoding.md R75). -/

namespace Sys2Proof.Machine

/-- NOP (R150): nothing but LAST_ERR. -/
def execNop (_data : Byte) (s : State) : Host.Outcome State Fault Refusal := complete s

/-- BUF_CLEAR (R151): LEN becomes 0; no byte is erased. -/
def execBufClear (_data : Byte) (s : State) : Host.Outcome State Fault Refusal := complete { s with len := 0 }

/-- ERR_CLEAR (R152). -/
def execErrClear (_data : Byte) (s : State) : Host.Outcome State Fault Refusal := complete { s with errCode := 0 }

/-- The rule of an opcode, with its DATA (R73). -/
def execOpcode (d : Byte) (s : State) (op : Opcode) (size : Nat := Config.bufSize) :
    Host.Outcome State Fault Refusal :=
  match op with
  | .nop => execNop d s
  | .crcInit => execCrcInit d s
  | .crcByte => execCrcByte d s
  | .crcBuf => execCrcBuf d s size
  | .crcVerify => execCrcVerify d s size
  | .shapeLen => execShapeLen d s size
  | .shapeLenAt => execShapeLenAt d s size
  | .shapeCheck => execShapeCheck d s size
  | .frameCheck => execFrameCheck d s size
  | .bufClear => execBufClear d s
  | .errClear => execErrClear d s

/-- WR_CMD (R75): RSVD is checked first, then OP, then the command's own rule runs. -/
def execWrCmd (w : BusWord) (s : State) (size : Nat := Config.bufSize) : Host.Outcome State Fault Refusal :=
  if rsvdField w ≠ 0 then rejectWrite .eRsvd s
  else match opcodeAt (opField w) with
    | none => rejectWrite .eOpcode s
    | some op => execOpcode (dataField w) s op size

end Sys2Proof.Machine
end

