-- ==== Sys2Proof/Machine/Ignored.lean ====
section
/-! DEFINITION. Accesses without an effect: writes to read-only registers and accesses to reserved offsets, which
are not counted (spec/42_control.md R160, spec/10_state.md R43, spec/60_exceptions.md R172), and misaligned accesses,
which are rejected with E_BUS and the ERR response (spec/20_memory.md R52). -/

namespace Sys2Proof.Machine

/-- WR_ID_IGNORED (R32, R160). -/
def execWrIdIgnored (_w : BusWord) (s : State) : Host.Outcome State Fault Refusal := answer 0 s

/-- WR_STATUS_IGNORED (R34, R160). -/
def execWrStatusIgnored (_w : BusWord) (s : State) : Host.Outcome State Fault Refusal := answer 0 s

/-- WR_CRC_IGNORED (R35, R160). -/
def execWrCrcIgnored (_w : BusWord) (s : State) : Host.Outcome State Fault Refusal := answer 0 s

/-- WR_RESULT_IGNORED (R39, R160). -/
def execWrResultIgnored (_w : BusWord) (s : State) : Host.Outcome State Fault Refusal := answer 0 s

/-- WR_CFG_IGNORED (R41, R160). -/
def execWrCfgIgnored (_w : BusWord) (s : State) : Host.Outcome State Fault Refusal := answer 0 s

/-- RSVD_ACCESS (R43, R160): a read answers 0, a write is ignored. -/
def execRsvdAccess (_d : Dir) (_o : Offset) (_w : BusWord) (s : State) : Host.Outcome State Fault Refusal :=
  answer 0 s

/-- MISALIGNED (R52): `respond(0, ERR)`, and STATUS records E_BUS. -/
def execMisaligned (_d : Dir) (_o : Offset) (_w : BusWord) (s : State) : Host.Outcome State Fault Refusal :=
  .next ((s.reject .eBus).respond 0 .err)

end Sys2Proof.Machine
end

