-- ==== Sys2Proof/Machine/Reads.lean ====
section
/-! DEFINITION. Register and BUF window reads (spec/42_control.md R158, R159), with the read value of each register
(spec/10_state.md R32 to R41). No architectural state changes. -/

namespace Sys2Proof.Machine

/-- RD_ID (R32). -/
def execRdId (s : State) : Host.Outcome State Fault Refusal := answer Config.idWord s

/-- RD_CMD (R33): write-only, reads 0. -/
def execRdCmd (s : State) : Host.Outcome State Fault Refusal := answer 0 s

/-- RD_STATUS (R34). -/
def execRdStatus (s : State) : Host.Outcome State Fault Refusal := answer s.statusWord s

/-- RD_CRC (R35). -/
def execRdCrc (s : State) : Host.Outcome State Fault Refusal := answer (s.crc.setWidth 32) s

/-- RD_LEN (R36). -/
def execRdLen (s : State) : Host.Outcome State Fault Refusal := answer (s.len.setWidth 32) s

/-- RD_OFF (R37). -/
def execRdOff (s : State) : Host.Outcome State Fault Refusal := answer (s.off.setWidth 32) s

/-- RD_WLEN (R38). -/
def execRdWlen (s : State) : Host.Outcome State Fault Refusal := answer (s.wlen.setWidth 32) s

/-- RD_RESULT (R39). -/
def execRdResult (s : State) : Host.Outcome State Fault Refusal := answer s.resultWord s

/-- RD_PUSH (R40): write-only, reads 0. -/
def execRdPush (s : State) : Host.Outcome State Fault Refusal := answer 0 s

/-- RD_CFG (R41): the buffer size. -/
def execRdCfg (s : State) (size : Nat := Config.bufSize) : Host.Outcome State Fault Refusal :=
  answer (BitVec.ofNat 32 size) s

/-- RD_BUF (R159): the word of BUF[4k .. 4k+3], at or above LEN too; a byte never written is a free draw (R28). -/
def execRdBuf (k : Nat) (s : State) (size : Nat := Config.bufSize) : Host.Outcome State Fault Refusal :=
  inBuf (4 * k) 4 (answer (windowValue (s.view (4 * k))) (s.drew 4)) size

end Sys2Proof.Machine
end

