-- ==== Sys2Proof/Machine/Registers.lean ====
section
/-! DEFINITION. Register and BUF window writes (spec/42_control.md R153 to R157). -/

namespace Sys2Proof.Machine

/-- LEN write (R153): E_LENVAL above `P_BUF_SIZE`. -/
def execWrLen (w : BusWord) (s : State) (size : Nat := Config.bufSize) : Host.Outcome State Fault Refusal :=
  if (lowHalf w).toNat > size then rejectWrite .eLenVal s
  else complete { s with len := lowHalf w }

/-- OFF write (R154). -/
def execWrOff (w : BusWord) (s : State) : Host.Outcome State Fault Refusal := complete { s with off := lowHalf w }

/-- WLEN write (R155). -/
def execWrWlen (w : BusWord) (s : State) : Host.Outcome State Fault Refusal := complete { s with wlen := lowHalf w }

/-- PUSH (R156): E_OVERFLOW when the buffer is full. -/
def execWrPush (w : BusWord) (s : State) (size : Nat := Config.bufSize) : Host.Outcome State Fault Refusal :=
  if s.len.toNat = size then rejectWrite .eOverflow s
  else inBuf s.len.toNat 1
    (complete { s with buf := Memory.write s.buf s.len.toNat (lowByte w), len := s.len + 1 }) size

/-- BUF window write (R157): four bytes; LEN is not changed. -/
def execWrBuf (k : Nat) (w : BusWord) (s : State) (size : Nat := Config.bufSize) :
    Host.Outcome State Fault Refusal :=
  inBuf (4 * k) 4 (complete { s with buf := Memory.writeBytes s.buf (4 * k) (windowBytes w) }) size

end Sys2Proof.Machine
end

