-- ==== Sys2Proof/Machine/Dispatch.lean ====
section
/-! DEFINITION. One arm per instruction of spec/opcode_table.json. -/

namespace Sys2Proof.Machine

def exec (i : Instr) (s : State) : Host.Outcome State Fault Refusal :=
  match i with
  | .nop d => Sys2Proof.Machine.execNop d s
  | .crcInit d => Sys2Proof.Machine.execCrcInit d s
  | .crcByte d => Sys2Proof.Machine.execCrcByte d s
  | .crcBuf d => Sys2Proof.Machine.execCrcBuf d s
  | .crcVerify d => Sys2Proof.Machine.execCrcVerify d s
  | .shapeLen d => Sys2Proof.Machine.execShapeLen d s
  | .shapeLenAt d => Sys2Proof.Machine.execShapeLenAt d s
  | .shapeCheck d => Sys2Proof.Machine.execShapeCheck d s
  | .frameCheck d => Sys2Proof.Machine.execFrameCheck d s
  | .bufClear d => Sys2Proof.Machine.execBufClear d s
  | .errClear d => Sys2Proof.Machine.execErrClear d s
  | .wrCmd w => Sys2Proof.Machine.execWrCmd w s
  | .wrLen w => Sys2Proof.Machine.execWrLen w s
  | .wrOff w => Sys2Proof.Machine.execWrOff w s
  | .wrWlen w => Sys2Proof.Machine.execWrWlen w s
  | .wrPush w => Sys2Proof.Machine.execWrPush w s
  | .wrBuf k w => Sys2Proof.Machine.execWrBuf k w s
  | .wrIdIgnored w => Sys2Proof.Machine.execWrIdIgnored w s
  | .wrStatusIgnored w => Sys2Proof.Machine.execWrStatusIgnored w s
  | .wrCrcIgnored w => Sys2Proof.Machine.execWrCrcIgnored w s
  | .wrResultIgnored w => Sys2Proof.Machine.execWrResultIgnored w s
  | .wrCfgIgnored w => Sys2Proof.Machine.execWrCfgIgnored w s
  | .rdId => Sys2Proof.Machine.execRdId s
  | .rdCmd => Sys2Proof.Machine.execRdCmd s
  | .rdStatus => Sys2Proof.Machine.execRdStatus s
  | .rdCrc => Sys2Proof.Machine.execRdCrc s
  | .rdLen => Sys2Proof.Machine.execRdLen s
  | .rdOff => Sys2Proof.Machine.execRdOff s
  | .rdWlen => Sys2Proof.Machine.execRdWlen s
  | .rdResult => Sys2Proof.Machine.execRdResult s
  | .rdPush => Sys2Proof.Machine.execRdPush s
  | .rdCfg => Sys2Proof.Machine.execRdCfg s
  | .rdBuf k => Sys2Proof.Machine.execRdBuf k s
  | .rsvdAccess d o w => Sys2Proof.Machine.execRsvdAccess d o w s
  | .misaligned d o w => Sys2Proof.Machine.execMisaligned d o w s

end Sys2Proof.Machine
end

