-- ==== Sys2Proof/Machine/Fetch.lean ====
section
/-! DEFINITION. How the block receives what the host does (spec/00_scope.md R12, spec/20_memory.md R51, R57, R61):
one pending event a step, in receive order; and reset (spec/70_reset_and_hazards.md R190, R191). -/

namespace Sys2Proof.Machine

/-- The host issues `as` after what is pending already (R61). -/
def State.issue (s : State) (as : List Access) : State :=
  { s with pending := s.pending ++ as.map HostEvent.access }

/-- The host issues `a` next. -/
def State.issueNext (s : State) (a : Access) : State := { s with pending := .access a :: s.pending }

/-- The index and the bytes an access writes to BUF (R191: "a BUF window write or a PUSH"); none for every other
access, nor for a PUSH to a full buffer, which writes nothing (R156). -/
def writtenBytes (s : State) (i : Instr) (size : Nat := Config.bufSize) : Nat × List Byte :=
  match i with
  | .wrBuf k w => (4 * k, windowBytes w)
  | .wrPush w => (s.len.toNat, if s.len.toNat < size then [lowByte w] else [])
  | .nop _ | .crcInit _ | .crcByte _ | .crcBuf _ | .crcVerify _ | .shapeLen _ | .shapeLenAt _ | .shapeCheck _
  | .frameCheck _ | .bufClear _ | .errClear _ | .wrCmd _ | .wrLen _ | .wrOff _ | .wrWlen _ | .wrIdIgnored _
  | .wrStatusIgnored _ | .wrCrcIgnored _ | .wrResultIgnored _ | .wrCfgIgnored _ | .rdId | .rdCmd | .rdStatus | .rdCrc
  | .rdLen | .rdOff | .rdWlen | .rdResult | .rdPush | .rdCfg | .rdBuf _ | .rsvdAccess _ _ _ | .misaligned _ _ _ =>
    (0, [])

/-- Reset asserted while the block performs `a` (R191): the access is abandoned and gets no response, each byte it was
writing is old or new, every register is reset (entry 8). -/
def State.abandon (s : State) (a : Access) (size : Nat := Config.bufSize) : State :=
  let ws := writtenBytes s (decodeAccess a size) size
  (s.tear ws.1 ws.2).warmReset

/-- What a block of `size` buffer bytes that runs instructions by `run` does with the next host event. With none
pending nothing happens: the block does nothing between accesses (R12, R192; entry 5). -/
def receiveBy (run : Instr → State → Host.Outcome State Fault Refusal) (size : Nat) (s : State) :
    Host.Outcome State Fault Refusal :=
  match s.pending with
  | [] => .next s
  | .access a :: rest => run (decodeAccess a size) { s with pending := rest }
  | .reset :: rest => .next { s with pending := rest }.warmReset
  | .resetDuring a :: rest => .next ({ s with pending := rest }.abandon a size)

/-- What this hardware does with the next host event. -/
def receive (s : State) : Host.Outcome State Fault Refusal := receiveBy exec Config.bufSize s

end Sys2Proof.Machine
end

