-- ==== Sys2Proof/Machine/Step.lean ====
section
/-! DEFINITION. One step: the block receives the next host event (spec/20_memory.md R51: "The model's step is one
transaction"). -/

namespace Sys2Proof.Machine

/-- One step. -/
def step (s : State) : Host.Outcome State Fault Refusal := receive s

/-- The state whose next step performs a word of the opcode table: its access is the next pending event (entries 5
and 11). -/
def State.withFetchWord (s : State) (nbits w : Nat) : State := s.issueNext (tableAccess nbits w)

end Sys2Proof.Machine
end

