-- ==== Sys2Proof/Machine/Sized.lean ====
section
/-! DEFINITION. The block with any legal buffer size (spec/00_scope.md R5: `P_BUF_SIZE` "is a parameter of the model").
`exec`, `step` and `Sys2Proof.core` are the block of `Config.bufSize` bytes, this hardware's; Laws/Sized.lean proves
that they are the ones below at that size. The state after reset is the same for every size (R190). -/

namespace Sys2Proof.Machine

/-- An instruction in a block of `size` buffer bytes: the meanings of `exec`, given the size where they depend on it. -/
def execSized (size : Nat) (i : Instr) (s : State) : Host.Outcome State Fault Refusal :=
  match i with
  | .crcBuf d => execCrcBuf d s size
  | .crcVerify d => execCrcVerify d s size
  | .shapeLen fc => execShapeLen fc s size
  | .shapeLenAt d => execShapeLenAt d s size
  | .shapeCheck d => execShapeCheck d s size
  | .frameCheck d => execFrameCheck d s size
  | .wrCmd w => execWrCmd w s size
  | .wrLen w => execWrLen w s size
  | .wrPush w => execWrPush w s size
  | .wrBuf k w => execWrBuf k w s size
  | .rdCfg => execRdCfg s size
  | .rdBuf k => execRdBuf k s size
  | .nop _ | .crcInit _ | .crcByte _ | .bufClear _ | .errClear _ | .wrOff _ | .wrWlen _ | .wrIdIgnored _
  | .wrStatusIgnored _ | .wrCrcIgnored _ | .wrResultIgnored _ | .wrCfgIgnored _ | .rdId | .rdCmd | .rdStatus
  | .rdCrc | .rdLen | .rdOff | .rdWlen | .rdResult | .rdPush | .rsvdAccess _ _ _ | .misaligned _ _ _ => exec i s

/-- One step of a block of `size` buffer bytes. -/
def stepSized (size : Nat) (s : State) : Host.Outcome State Fault Refusal := receiveBy (execSized size) size s

/-- The machine with a buffer of `size` bytes. -/
def sizedCore (size : Nat) : Host.Core :=
  { State := State, Fault := Fault, Refusal := Refusal, step := stepSized size, reset := State.reset }

end Sys2Proof.Machine
end

