-- ==== Sys2Proof/Safety.lean ====
section
/-! DEFINITION. What counts as a safe state and a safe step, in the terms claims use. -/

namespace Sys2Proof.Safety

open Sys2Proof.Machine

/-- LEN counts bytes that exist (spec/10_state.md R29). -/
def lenInBuf (s : State) (size : Nat := Config.bufSize) : Prop := s.len.toNat ≤ size

/-- ERRCODE is one of the codes of R170 (spec/10_state.md R34). -/
def legalErrCode (s : State) : Prop := s.errCode.toNat ≤ 6

/-- EXPLEN is 0 without a length, and between 5 and 259 with one (spec/10_state.md R39). -/
def legalResult (s : State) : Prop :=
  (s.lenValid = false → s.expLen = 0) ∧ (s.lenValid = true → 5 ≤ s.expLen.toNat ∧ s.expLen.toNat ≤ 259)

/-- A rejection is still recorded while LAST_ERR shows one (spec/60_exceptions.md R171, R172). -/
def recordedErr (s : State) : Prop := s.lastErr = true → s.errCode ≠ 0

/-- The invariant: LEN, ERRCODE and RESULT hold legal values, and BUF is in canonical form. -/
structure Inv (s : State) : Prop where
  lenInBuf : lenInBuf s
  legalErrCode : legalErrCode s
  legalResult : legalResult s
  recordedErr : recordedErr s
  bufWf : Memory.wf s.buf = true

/-- `W` is a reading of BUF from index `a` over `n` bytes: every byte written there is read as it was written; a byte
never written may be anything (spec/10_state.md R28). -/
def reading (s : State) (a n : Nat) (W : Nat → Byte) : Prop :=
  ∀ k < n, ∀ b, Memory.read? s.buf (a + k) = some b → W k = b

/-- The bytes of a list as a view, index 0 first; 0 beyond its end. -/
def viewOf (bs : List Byte) : Nat → Byte := fun k => bs.getD k 0

/-- What a rejected aligned write leaves (spec/60_exceptions.md R171, R173): nothing changes but LAST_ERR, an ERRCODE
that was 0, and the answer `respond(0, OK)`. -/
def rejected (s : State) (code : BitVec 4) : State :=
  { s with
    lastErr := true
    errCode := if s.errCode = 0 then code else s.errCode
    responses := ⟨0, .ok⟩ :: s.responses }

/-- A command word with OP = `op` runs the instruction `i` with its DATA field when RSVD = 0, and is rejected with
E_RSVD otherwise (spec/30_encoding.md R71, R75). -/
def issues (op : Byte) (i : Byte → Instr) : Prop :=
  ∀ (w : BusWord) (s : State), w.extractLsb' 0 8 = op →
    (w.extractLsb' 16 16 = 0 → exec (.wrCmd w) s = exec (i (w.extractLsb' 8 8)) s) ∧
    (w.extractLsb' 16 16 ≠ 0 → exec (.wrCmd w) s = .next (rejected s 1))

/-- The counted operations of R172: every CMD write, every LEN, OFF, WLEN and PUSH write, every BUF window write, and
every misaligned access. -/
def counted : Instr → Bool
  | .nop _ | .crcInit _ | .crcByte _ | .crcBuf _ | .crcVerify _ | .shapeLen _ | .shapeLenAt _ | .shapeCheck _
  | .frameCheck _ | .bufClear _ | .errClear _ => true
  | .wrCmd _ | .wrLen _ | .wrOff _ | .wrWlen _ | .wrPush _ | .wrBuf _ _ => true
  | .wrIdIgnored _ | .wrStatusIgnored _ | .wrCrcIgnored _ | .wrResultIgnored _ | .wrCfgIgnored _ => false
  | .rdId | .rdCmd | .rdStatus | .rdCrc | .rdLen | .rdOff | .rdWlen | .rdResult | .rdPush | .rdCfg | .rdBuf _ => false
  | .rsvdAccess _ _ _ => false
  | .misaligned _ _ _ => true

/-- The instruction runs the command `op`: it is the command itself, or the CMD write of a word that holds it. -/
def runs (i : Instr) (op : Opcode) : Prop :=
  (∃ d, i = op.instr d) ∨ ∃ w, i = .wrCmd w ∧ w.extractLsb' 16 16 = 0 ∧ w.extractLsb' 0 8 = op.code

/-- The commands whose window BUF[OFF .. OFF+WLEN-1] is range-checked (R175). -/
def windowOps : List Opcode := [.crcBuf, .crcVerify, .shapeCheck, .frameCheck]

/-- The commands whose view BUF[OFF .. LEN-1] is range-checked (R175). -/
def viewOps : List Opcode := [.shapeLen, .shapeLenAt]

/-- The range check of R175 passes for the command. -/
def inRange (s : State) (op : Opcode) : Prop :=
  (op ∈ windowOps → s.off.toNat + s.wlen.toNat ≤ s.len.toNat) ∧ (op ∈ viewOps → s.off.toNat ≤ s.len.toNat)

/-- The cause of each error code, and the operation that raises it (R170). -/
def cause (s : State) (i : Instr) (code : BitVec 4) : Prop :=
  (code = 1 ∧ ∃ w, i = .wrCmd w ∧ w.extractLsb' 16 16 ≠ 0) ∨
  (code = 2 ∧ ∃ w, i = .wrCmd w ∧ w.extractLsb' 16 16 = 0 ∧ ∀ op : Opcode, w.extractLsb' 0 8 ≠ op.code) ∨
  (code = 3 ∧ ∃ op, runs i op ∧ ¬inRange s op) ∨
  (code = 4 ∧ ∃ w, i = .wrLen w ∧ Config.bufSize < (w.extractLsb' 0 16).toNat) ∨
  (code = 5 ∧ ∃ w, i = .wrPush w ∧ s.len.toNat = Config.bufSize) ∨
  (code = 6 ∧ ∃ d o w, i = .misaligned d o w)

end Sys2Proof.Safety
end

