-- ==== Sys2Proof/Certificates/Slice0/Obligations.lean ====
section
/-! DEFINITION. The statements for the provers. Each docstring names the rule of spec/ it formalises; "entry <n>" is
the assumption log's. In an existential `∃ W n, reading s a m W ∧ …`, `W` is what BUF is read as: the bytes that were
written, and any value for a byte never written (R28); `n` is the model's own count of draws (entry 4). -/

open Sys2Proof Sys2Proof.Machine Sys2Proof.Safety

/-! ## Reset and steps -/

/-- R190: what reset leaves. BUF is not written, ID and CFG are unaffected; after power-up no byte of BUF is given. -/
def Obligations.ResetLeavesSpecifiedState : Prop :=
  (∀ (s : State) (rest : List HostEvent), s.pending = .reset :: rest →
    step s = .next { s with
      crc := 0xFFFF, len := 0, off := 0, wlen := 0, expLen := 0, lenValid := false, crcOk := false
      shapeOk := false, lastErr := false, errCode := 0, pending := rest }) ∧
  (∀ s : State, exec .rdId s = .next { s with responses := ⟨0x4D424301, .ok⟩ :: s.responses } ∧
    exec .rdCfg s = .next { s with responses := ⟨512, .ok⟩ :: s.responses }) ∧
  State.reset.crc = 0xFFFF ∧ State.reset.len = 0 ∧ State.reset.off = 0 ∧ State.reset.wlen = 0 ∧
  State.reset.expLen = 0 ∧ State.reset.lenValid = false ∧ State.reset.crcOk = false ∧
  State.reset.shapeOk = false ∧ State.reset.lastErr = false ∧ State.reset.errCode = 0 ∧
  ∀ a, Memory.read? State.reset.buf a = none

/-- R191: an access in progress when reset is asserted gets no response; every register is in the reset state; each
byte a PUSH or a BUF window write was writing is old or new, and every other byte is unchanged. -/
def Obligations.ResetAbandonsAccess : Prop :=
  ∀ (s : State) (a : Access) (rest : List HostEvent), s.pending = .resetDuring a :: rest →
    ∃ t, step s = .next t ∧
      t = { s with
        crc := 0xFFFF, len := 0, off := 0, wlen := 0, expLen := 0, lenValid := false, crcOk := false
        shapeOk := false, lastErr := false, errCode := 0, pending := rest, buf := t.buf, draws := t.draws } ∧
      ∀ x, Memory.read? t.buf x = Memory.read? s.buf x ∨
        (a.dir = .write ∧ a.offset = 0x020 ∧ s.len.toNat < 512 ∧ x = s.len.toNat ∧
          Memory.read? t.buf x = some (a.wdata.extractLsb' 0 8)) ∨
        (a.dir = .write ∧ ∃ k i, k < 128 ∧ i < 4 ∧ a.offset.toNat = 0x400 + 4 * k ∧ x = 4 * k + i ∧
          Memory.read? t.buf x = some (a.wdata.extractLsb' (8 * i) 8))

/-- A step performs the next pending access (R51, R61): it is `exec` of the instruction the access decodes to, on the
state with that access received. For a CMD write of a defined command word it is `exec` of the command (R75). With
nothing pending the block does nothing (R12, R192): the model's choice of a next state there is entry 5. The step and
the instructions of this hardware are those of the block whose parameter `P_BUF_SIZE` is 512 (R5). -/
def Obligations.StepRunsNextAccess : Prop :=
  (∀ (s : State) (a : Access) (rest : List HostEvent), s.pending = .access a :: rest →
    step s = exec (decodeAccess a) { s with pending := rest }) ∧
  (∀ (s : State) (w : BusWord) (i : Instr) (rest : List HostEvent),
    s.pending = .access ⟨.write, 0x004, w⟩ :: rest → decodeCmd w = .ok i →
    step s = exec i { s with pending := rest }) ∧
  (∀ s : State, s.pending = [] → step s = .next s) ∧
  (∀ s : State, stepSized 512 s = step s) ∧
  (∀ (i : Instr) (s : State), execSized 512 i s = exec i s)

/-! ## Encoding -/

/-- Decoding the encoding of a well-formed instruction gives it back, in both formats (R70, R71, R73, R74). -/
def Obligations.DecodeEncodeRoundTrip : Prop :=
  ∀ i : Instr, i.wellFormed = true → decode (encode i) = .ok i

/-- What decodes is well-formed, and its encoding is the code itself: only the wdata of a READ, which the block
ignores (R51), is not in the instruction. -/
def Obligations.DecodedCodeEncodesBack : Prop :=
  ∀ (c : Code) (i : Instr), decode c = .ok i → i.wellFormed = true ∧
    (encode i = c ∨ ∃ o w, c = .bus ⟨.read, o, w⟩ ∧ encode i = .bus ⟨.read, o, 0⟩)

/-- Words written out from R71, R73, R74, R79 and the vectors V62, V63, V67, V70 of 95_test_vectors.md. -/
def Obligations.SpecWordsDecode : Prop :=
  decode (.cmd 0x00000000) = .ok (.nop 0) ∧ decode (.cmd 0x00000302) = .ok (.crcByte 3) ∧
  decode (.cmd 0x00001010) = .ok (.shapeLen 0x10) ∧ decode (.cmd 0x00000013) = .ok (.frameCheck 0) ∧
  decode (.cmd 0x00010001) = .error .eRsvd ∧ decode (.cmd 0xFFFF00FF) = .error .eRsvd ∧
  decode (.cmd 0x0000007F) = .error .eOpcode ∧
  decodeAccess ⟨.write, 0x010, 513⟩ = .wrLen 513 ∧ decodeAccess ⟨.read, 0x00C, 0⟩ = .rdCrc ∧
  decodeAccess ⟨.write, 0x00C, 0⟩ = .wrCrcIgnored 0 ∧ decodeAccess ⟨.read, 0x5FC, 0⟩ = .rdBuf 127 ∧
  decodeAccess ⟨.write, 0x600, 5⟩ = .rsvdAccess .write 0x600 5 ∧
  decodeAccess ⟨.read, 0x002, 0⟩ = .misaligned .read 0x002 0

/-- R74: the instruction of every word-aligned access, by offset and direction. -/
def Obligations.AlignedAccessMap : Prop :=
  (∀ w x : BusWord,
    (decodeAccess ⟨.read, 0x000, x⟩ = .rdId ∧ decodeAccess ⟨.write, 0x000, w⟩ = .wrIdIgnored w) ∧
    (decodeAccess ⟨.read, 0x004, x⟩ = .rdCmd ∧ decodeAccess ⟨.write, 0x004, w⟩ = .wrCmd w) ∧
    (decodeAccess ⟨.read, 0x008, x⟩ = .rdStatus ∧ decodeAccess ⟨.write, 0x008, w⟩ = .wrStatusIgnored w) ∧
    (decodeAccess ⟨.read, 0x00C, x⟩ = .rdCrc ∧ decodeAccess ⟨.write, 0x00C, w⟩ = .wrCrcIgnored w) ∧
    (decodeAccess ⟨.read, 0x010, x⟩ = .rdLen ∧ decodeAccess ⟨.write, 0x010, w⟩ = .wrLen w) ∧
    (decodeAccess ⟨.read, 0x014, x⟩ = .rdOff ∧ decodeAccess ⟨.write, 0x014, w⟩ = .wrOff w) ∧
    (decodeAccess ⟨.read, 0x018, x⟩ = .rdWlen ∧ decodeAccess ⟨.write, 0x018, w⟩ = .wrWlen w) ∧
    (decodeAccess ⟨.read, 0x01C, x⟩ = .rdResult ∧ decodeAccess ⟨.write, 0x01C, w⟩ = .wrResultIgnored w) ∧
    (decodeAccess ⟨.read, 0x020, x⟩ = .rdPush ∧ decodeAccess ⟨.write, 0x020, w⟩ = .wrPush w) ∧
    (decodeAccess ⟨.read, 0x024, x⟩ = .rdCfg ∧ decodeAccess ⟨.write, 0x024, w⟩ = .wrCfgIgnored w)) ∧
  (∀ (o : Offset) (w : BusWord) (k : Nat), k < 128 → o.toNat = 0x400 + 4 * k →
    decodeAccess ⟨.read, o, w⟩ = .rdBuf k ∧ decodeAccess ⟨.write, o, w⟩ = .wrBuf k w) ∧
  (∀ (d : Dir) (o : Offset) (w : BusWord), o.toNat % 4 = 0 → 0x024 < o.toNat →
    ¬(0x400 ≤ o.toNat ∧ o.toNat < 0x600) → decodeAccess ⟨d, o, w⟩ = .rsvdAccess d o w) ∧
  (∀ (d : Dir) (o : Offset) (w : BusWord), o.toNat % 4 ≠ 0 → decodeAccess ⟨d, o, w⟩ = .misaligned d o w)

/-- R75 and R76: RSVD is checked first, then OP, and the command runs otherwise; DATA is ignored by every opcode that
does not use it. -/
def Obligations.CommandWordCheckOrder : Prop :=
  (∀ (w : BusWord) (s : State),
    (w.extractLsb' 16 16 ≠ 0 → exec (.wrCmd w) s = .next (rejected s 1)) ∧
    (w.extractLsb' 16 16 = 0 →
      w.extractLsb' 0 8 ∉ ([0x00, 0x01, 0x02, 0x03, 0x04, 0x10, 0x11, 0x12, 0x13, 0x20, 0x21] : List Byte) →
      exec (.wrCmd w) s = .next (rejected s 2)) ∧
    (∀ op : Opcode, w.extractLsb' 16 16 = 0 → w.extractLsb' 0 8 = op.code →
      exec (.wrCmd w) s = exec (op.instr (w.extractLsb' 8 8)) s)) ∧
  (∀ (op : Opcode) (d d' : Byte) (s : State), op ≠ .crcByte → op ≠ .shapeLen →
    exec (op.instr d) s = exec (op.instr d') s) ∧
  (∀ x : Byte, x ∈ ([0x00, 0x01, 0x02, 0x03, 0x04, 0x10, 0x11, 0x12, 0x13, 0x20, 0x21] : List Byte) ↔
    ∃ op : Opcode, op.code = x)

/-- A CMD write of a defined command word whose range check passes completes, answers OK with data 0, and leaves
LAST_ERR 0 (R75, R172, R173, R199), in every state with LEN <= `P_BUF_SIZE` (R29). -/
def Obligations.DefinedCommandWriteCompletes : Prop :=
  ∀ (w : BusWord) (op : Opcode) (s : State), w.extractLsb' 16 16 = 0 → w.extractLsb' 0 8 = op.code →
    lenInBuf s → inRange s op →
    ∃ t, exec (.wrCmd w) s = .next t ∧ t.lastErr = false ∧ t.responses = ⟨0, .ok⟩ :: s.responses

/-- R6, R50, R182: the register space is the 4096 host addresses from `P_BASE` on, whatever `P_BASE` is (entry 2). -/
def Obligations.BaseAddressSelectsOffset : Prop :=
  ∀ pBase : Nat, (∀ o : Offset, selectOffset pBase (hostAddress pBase o) = some o) ∧
    ∀ addr, (addr < pBase ∨ pBase + 4096 ≤ addr) → selectOffset pBase addr = none

/-- R79: the expansions of the pseudo-instructions, with the three examples (on the abstract syntax of entry 14). -/
def Obligations.PseudoInstructionsExpand : Prop :=
  (∀ op : Opcode, op ≠ .crcByte → op ≠ .shapeLen →
    (Asm.command op none).expand = [⟨.write, 0x004, op.code.setWidth 32⟩]) ∧
  (∀ (op : Opcode) (d : Byte), (Asm.command op (some d)).expand =
    [⟨.write, 0x004, (d.setWidth 32 <<< 8) ||| op.code.setWidth 32⟩]) ∧
  (∀ bs : List Byte, (Asm.crcBytes bs).expand = bs.flatMap fun b => (Asm.command .crcByte (some b)).expand) ∧
  (∀ bs : List Byte, (Asm.pushBytes bs).expand = bs.map fun b => ⟨.write, 0x020, b.setWidth 32⟩) ∧
  (∀ o n : BusWord, (Asm.window o n).expand = [⟨.write, 0x014, o⟩, ⟨.write, 0x018, n⟩]) ∧
  (Asm.command .crcByte (some 0x03)).expand = [⟨.write, 0x004, 0x00000302⟩] ∧
  (Asm.command .shapeLen (some 0x10)).expand = [⟨.write, 0x004, 0x00001010⟩] ∧
  (Asm.command .frameCheck none).expand = [⟨.write, 0x004, 0x00000013⟩]

/-! ## The CRC generator -/

/-- R100: the byte enters the low 8 bits, then 8 iterations of shift and conditional XOR with 0xA001. -/
def Obligations.CrcStepIsEightShifts : Prop :=
  ∀ (c : Half) (b : Byte), crcStep c b =
    (fun x : Half => if x.getLsbD 0 = true then (x >>> 1) ^^^ 0xA001 else x >>> 1)^[8] (c ^^^ b.setWidth 16)

/-- R101: the computation starts from 0xFFFF, folds the bytes in order, and has no final step. -/
def Obligations.CrcComputeFoldsFromSeed : Prop :=
  ∀ (W : Nat → Byte) (n : Nat), crcCompute W n = ((List.range n).map W).foldl crcStep 0xFFFF

/-- R102: false below two bytes; otherwise the last two bytes are the CRC of the bytes before them, low byte first. -/
def Obligations.CrcVerifyComparesTrailer : Prop :=
  ∀ (W : Nat → Byte) (n : Nat), (n < 2 → crcVerify W n = false) ∧
    (2 ≤ n → (crcVerify W n = true ↔
      W (n - 2) = (crcCompute W (n - 2)).extractLsb' 0 8 ∧ W (n - 1) = (crcCompute W (n - 2)).extractLsb' 8 8))

/-- Known answers of V1, V10, V11, V13 and V16 (95_test_vectors.md). -/
def Obligations.CrcKnownAnswers : Prop :=
  crcStep 0x0000 0x00 = 0x0000 ∧ crcStep 0x0001 0x00 = 0xC0C1 ∧ crcStep 0xFFFF 0xFF = 0x00FF ∧
  crcCompute (viewOf [0x01, 0x03]) 2 = 0x2140 ∧
  crcCompute (viewOf [0x01, 0x03, 0x00, 0x00, 0x00, 0x01]) 6 = 0x0A84 ∧
  crcCompute (viewOf [0x31, 0x32, 0x33, 0x34, 0x35, 0x36, 0x37, 0x38, 0x39]) 9 = 0x4B37 ∧
  crcVerify (viewOf [0x01, 0x03, 0x00, 0x00, 0x00, 0x01, 0x84, 0x0A]) 8 = true ∧
  crcVerify (viewOf [0x01, 0x03, 0x02, 0x00, 0x2A, 0xB9, 0xC4]) 7 = false

/-- R104: CRC_INIT, its encoding, its rejection, and nothing else changed. -/
def Obligations.CrcInitSetsSeed : Prop :=
  issues 0x01 .crcInit ∧
  ∀ (d : Byte) (s : State), exec (.crcInit d) s =
    .next { s with crc := 0xFFFF, lastErr := false, responses := ⟨0, .ok⟩ :: s.responses }

/-- R105: CRC_BYTE, its encoding, its rejection, its two examples, and nothing else changed. -/
def Obligations.CrcByteFoldsData : Prop :=
  issues 0x02 .crcByte ∧ crcStep 0xFFFF 0x00 = 0x40BF ∧ crcStep 0xFFFF 0x01 = 0x807E ∧
  ∀ (d : Byte) (s : State), exec (.crcByte d) s =
    .next { s with crc := crcStep s.crc d, lastErr := false, responses := ⟨0, .ok⟩ :: s.responses }

/-- R106: CRC_BUF, its encoding, its rejections, its corner cases and example, and nothing else changed. -/
def Obligations.CrcBufComputesWindow : Prop :=
  issues 0x03 .crcBuf ∧
  (∀ (d : Byte) (s : State), s.len.toNat < s.off.toNat + s.wlen.toNat →
    exec (.crcBuf d) s = .next (rejected s 3)) ∧
  (∀ (d : Byte) (s : State), s.off.toNat + s.wlen.toNat ≤ s.len.toNat → lenInBuf s →
    ∃ W n, reading s s.off.toNat s.wlen.toNat W ∧ exec (.crcBuf d) s = .next { s with
      crc := crcCompute W s.wlen.toNat, lastErr := false, draws := n
      responses := ⟨0, .ok⟩ :: s.responses }) ∧
  (∀ W : Nat → Byte, crcCompute W 0 = 0xFFFF) ∧
  crcCompute (viewOf [0x01, 0x03, 0x00, 0x00, 0x00, 0x01]) 6 = 0x0A84

/-- R107: CRC_VERIFY. CRC and CRC_OK come from two readings of the window, which agree on every byte that was written
(the third clause); where a byte was never written they may differ (the second; entry 10). -/
def Obligations.CrcVerifyChecksWindow : Prop :=
  issues 0x04 .crcVerify ∧
  (∀ (d : Byte) (s : State), s.len.toNat < s.off.toNat + s.wlen.toNat →
    exec (.crcVerify d) s = .next (rejected s 3)) ∧
  (∀ (d : Byte) (s : State), s.off.toNat + s.wlen.toNat ≤ s.len.toNat → lenInBuf s → s.wlen.toNat < 2 →
    exec (.crcVerify d) s = .next { s with
      crcOk := false, lastErr := false, responses := ⟨0, .ok⟩ :: s.responses }) ∧
  (∀ (d : Byte) (s : State), s.off.toNat + s.wlen.toNat ≤ s.len.toNat → lenInBuf s → 2 ≤ s.wlen.toNat →
    ∃ W W' n, reading s s.off.toNat s.wlen.toNat W ∧ reading s s.off.toNat s.wlen.toNat W' ∧
      exec (.crcVerify d) s = .next { s with
        crc := crcCompute W (s.wlen.toNat - 2), crcOk := crcVerify W' s.wlen.toNat, lastErr := false, draws := n
        responses := ⟨0, .ok⟩ :: s.responses }) ∧
  (∀ (d : Byte) (s : State) (W : Nat → Byte), s.off.toNat + s.wlen.toNat ≤ s.len.toNat → lenInBuf s →
    2 ≤ s.wlen.toNat → (∀ k < s.wlen.toNat, Memory.read? s.buf (s.off.toNat + k) = some (W k)) →
    ∃ n, exec (.crcVerify d) s = .next { s with
      crc := crcCompute W (s.wlen.toNat - 2), crcOk := crcVerify W s.wlen.toNat, lastErr := false, draws := n
      responses := ⟨0, .ok⟩ :: s.responses })

/-- R108 item 1 (chaining): after CRC_INIT and CRC_BYTE b0, ..., CRC_BYTE b(n-1), CRC is crc_compute of the bytes; no
other register changes but LAST_ERR, and BUF does not. Each of the n+1 accesses is answered `respond(0, OK)`. -/
def Obligations.CrcByteStreamChains : Prop :=
  ∀ (bs : List Byte) (s : State) (rest : List HostEvent),
    s.pending = .access ⟨.write, 0x004, 0x00000001⟩ ::
      (bs.map fun b : Byte => HostEvent.access ⟨.write, 0x004, (b.setWidth 32 <<< 8) ||| 0x02⟩) ++ rest →
    Host.Core.run Sys2Proof.core (bs.length + 1) s = .next
      ({ s with crc := crcCompute (viewOf bs) bs.length, lastErr := false, pending := rest
                responses := List.replicate (bs.length + 1) ⟨0, .ok⟩ ++ s.responses } : State)

/-- R108 item 2 (round trip): CRC_VERIFY of a window of bytes followed by their CRC, low byte first, sets CRC_OK. -/
def Obligations.TrailerVerifies : Prop :=
  ∀ (d : Byte) (s : State) (W : Nat → Byte) (n : Nat), s.wlen.toNat = n + 2 →
    s.off.toNat + s.wlen.toNat ≤ s.len.toNat → lenInBuf s →
    (∀ k < n, Memory.read? s.buf (s.off.toNat + k) = some (W k)) →
    Memory.read? s.buf (s.off.toNat + n) = some ((crcCompute W n).extractLsb' 0 8) →
    Memory.read? s.buf (s.off.toNat + n + 1) = some ((crcCompute W n).extractLsb' 8 8) →
    ∃ m, exec (.crcVerify d) s = .next { s with
      crc := crcCompute W n, crcOk := true, lastErr := false, draws := m
      responses := ⟨0, .ok⟩ :: s.responses }

/-- R108 item 3 (residue; the spec marks it "from general knowledge"): the CRC of a whole frame that verifies is 0. -/
def Obligations.VerifiedFrameResidueIsZero : Prop :=
  ∀ (W : Nat → Byte) (n : Nat), crcVerify W n = true → crcCompute W n = 0

/-- R108 item 4 (the spec marks it "from general knowledge"): every single-bit flip of a frame that verifies makes it
fail, whatever its length. -/
def Obligations.SingleBitFlipDetected : Prop :=
  ∀ (W W' : Nat → Byte) (n i j : Nat), crcVerify W n = true → i < n → j < 8 →
    W' i = W i ^^^ (1#8 <<< j) → (∀ k, k ≠ i → W' k = W k) → crcVerify W' n = false

/-! ## The shape validator -/

/-- R121 to R126: the expected length of every function code, case by case. -/
def Obligations.ExpectedLengthPerFunctionCode : Prop :=
  ∀ (fc : Byte) (W : Nat → Byte) (avail : Nat),
    (128 ≤ fc.toNat → expectedLen fc W avail = if 5 ≤ avail then some 5 else none) ∧
    (1 ≤ fc.toNat ∧ fc.toNat ≤ 4 →
      (8 ≤ avail ∧ 1 ≤ 256 * (W 4).toNat + (W 5).toNat ∧ 256 * (W 4).toNat + (W 5).toNat ≤ 125 →
        expectedLen fc W avail = some 8) ∧
      (¬(8 ≤ avail ∧ 1 ≤ 256 * (W 4).toNat + (W 5).toNat ∧ 256 * (W 4).toNat + (W 5).toNat ≤ 125) →
        (3 ≤ avail ∧ 1 ≤ (W 2).toNat ∧ (W 2).toNat ≤ 250 ∧ 5 + (W 2).toNat ≤ avail →
          expectedLen fc W avail = some (5 + (W 2).toNat)) ∧
        (¬(3 ≤ avail ∧ 1 ≤ (W 2).toNat ∧ (W 2).toNat ≤ 250 ∧ 5 + (W 2).toNat ≤ avail) →
          expectedLen fc W avail = none))) ∧
    (fc.toNat = 5 ∨ fc.toNat = 6 → expectedLen fc W avail = if 8 ≤ avail then some 8 else none) ∧
    (fc.toNat = 15 ∨ fc.toNat = 16 →
      (7 ≤ avail ∧ 1 ≤ (W 6).toNat ∧ (W 6).toNat ≤ 250 ∧ 9 + (W 6).toNat ≤ avail →
        expectedLen fc W avail = some (9 + (W 6).toNat)) ∧
      (¬(7 ≤ avail ∧ 1 ≤ (W 6).toNat ∧ (W 6).toNat ≤ 250 ∧ 9 + (W 6).toNat ≤ avail) →
        expectedLen fc W avail = if 8 ≤ avail then some 8 else none)) ∧
    (fc.toNat = 0 ∨ 7 ≤ fc.toNat ∧ fc.toNat ≤ 14 ∨ 17 ≤ fc.toNat ∧ fc.toNat ≤ 127 →
      expectedLen fc W avail = none)

/-- R127: the plausibility check, which reads only the bytes of the frame. -/
def Obligations.PlausibleShapeTestsFrameAlone : Prop :=
  (∀ (W : Nat → Byte) (n : Nat), plausibleShape W n = true ↔
    2 ≤ n ∧ (W 0).toNat ≤ 247 ∧ expectedLen (W 1) W n = some n) ∧
  (∀ (W W' : Nat → Byte) (n : Nat), (∀ k < n, W k = W' k) → plausibleShape W n = plausibleShape W' n)

/-- R133: every expected length lies between 5 and 259, by kind of function code, and so does the length of every
plausible frame; EXPLEN is at most 259; BUF holds the longest frame. -/
def Obligations.ExpectedLengthBounds : Prop :=
  (∀ (fc : Byte) (W : Nat → Byte) (avail n : Nat), expectedLen fc W avail = some n →
    5 ≤ n ∧ n ≤ 259 ∧ n ≤ avail ∧ (128 ≤ fc.toNat → n = 5) ∧
    (1 ≤ fc.toNat ∧ fc.toNat ≤ 4 → n = 8 ∨ 6 ≤ n ∧ n ≤ 255) ∧
    (fc.toNat = 5 ∨ fc.toNat = 6 → n = 8) ∧
    (fc.toNat = 15 ∨ fc.toNat = 16 → n = 8 ∨ 10 ≤ n ∧ n ≤ 259)) ∧
  (∀ (op : Opcode) (d : Byte) (s t : State), op ∈ viewOps → exec (op.instr d) s = .next t → t.lastErr = false →
    t.expLen.toNat ≤ 259) ∧
  (∀ (W : Nat → Byte) (n : Nat), plausibleShape W n = true → 5 ≤ n ∧ n ≤ 259) ∧
  259 ≤ Config.bufSize ∧ 260 ≤ Config.bufSize ∧ Config.bufSize % 4 = 0

/-- The eight consequences of R128, each over every window it speaks of, with its example. Item 5 is stated with the
exception that R122 makes: a plausible 7-byte read response whose bytes 4 and 5 form a quantity of 1 to 125 is, one byte
longer, a plausible 8-byte read request, even if its CRC is valid (entry 17); no other plausible frame is. -/
def Obligations.ShapeCornerCases : Prop :=
  ((∀ (fc : Byte) (W : Nat → Byte) (avail : Nat), 1 ≤ fc.toNat → fc.toNat ≤ 4 → 8 ≤ avail →
      1 ≤ 256 * (W 4).toNat + (W 5).toNat → 256 * (W 4).toNat + (W 5).toNat ≤ 125 →
      expectedLen fc W avail = some 8) ∧
    (∀ (W : Nat → Byte) (n : Nat), 1 ≤ (W 1).toNat → (W 1).toNat ≤ 4 → 8 < n →
      1 ≤ 256 * (W 4).toNat + (W 5).toNat → 256 * (W 4).toNat + (W 5).toNat ≤ 125 → plausibleShape W n = false) ∧
    plausibleShape (viewOf [0x01, 0x03, 0x04, 0x12, 0x00, 0x05, 0x00, 0xFC, 0x1B]) 9 = false ∧
    crcVerify (viewOf [0x01, 0x03, 0x04, 0x12, 0x00, 0x05, 0x00, 0xFC, 0x1B]) 9 = true) ∧
  ((∀ W : Nat → Byte, (W 0).toNat ≤ 247 → 1 ≤ (W 1).toNat → (W 1).toNat ≤ 4 → W 2 = 3 →
      ¬(1 ≤ 256 * (W 4).toNat + (W 5).toNat ∧ 256 * (W 4).toNat + (W 5).toNat ≤ 125) →
      expectedLen (W 1) W 8 = some (5 + 3) ∧ plausibleShape W 8 = true) ∧
    plausibleShape (viewOf [0x01, 0x03, 0x03, 0x00, 0x00, 0x00, 0x45, 0x8E]) 8 = true) ∧
  ((∀ W : Nat → Byte, (W 0).toNat ≤ 247 → 1 ≤ (W 1).toNat → (W 1).toNat ≤ 4 → W 2 = 2 → plausibleShape W 7 = true) ∧
    plausibleShape (viewOf [0x01, 0x03, 0x02, 0x00, 0x00, 0x01, 0x00]) 7 = true) ∧
  (∀ W : Nat → Byte, (W 0).toNat ≤ 247 → W 1 = 15 ∨ W 1 = 16 → plausibleShape W 8 = true ∧
    (1 ≤ (W 6).toNat ∧ (W 6).toNat ≤ 250 → plausibleShape W (9 + (W 6).toNat) = true)) ∧
  ((∀ (W : Nat → Byte) (n : Nat), plausibleShape W n = true →
      (plausibleShape W (n + 1) = true ↔ n = 7 ∧ 1 ≤ (W 1).toNat ∧ (W 1).toNat ≤ 4 ∧
        1 ≤ 256 * (W 4).toNat + (W 5).toNat ∧ 256 * (W 4).toNat + (W 5).toNat ≤ 125)) ∧
    (plausibleShape (viewOf [0x05, 0x03, 0x02, 0x00, 0x00, 0x49, 0x84, 0x00]) 7 = true ∧
      crcVerify (viewOf [0x05, 0x03, 0x02, 0x00, 0x00, 0x49, 0x84, 0x00]) 7 = true ∧
      plausibleShape (viewOf [0x05, 0x03, 0x02, 0x00, 0x00, 0x49, 0x84, 0x00]) 8 = true) ∧
    plausibleShape (viewOf [0x01, 0x83, 0x02, 0xC0, 0xF1, 0x00]) 6 = false ∧
    expectedLen 0x83 (viewOf [0x01, 0x83, 0x02, 0xC0, 0xF1, 0x00]) 6 = some 5) ∧
  (plausibleShape (viewOf [0x00, 0x06, 0x00, 0x01, 0x00, 0x03, 0x99, 0xDA]) 8 = true ∧
    ∀ (W : Nat → Byte) (n : Nat), 248 ≤ (W 0).toNat → plausibleShape W n = false) ∧
  (∀ (W : Nat → Byte) (avail : Nat), 5 ≤ avail → expectedLen 0x80 W avail = some 5) ∧
  (∀ (fc b : Byte) (W : Nat → Byte) (avail : Nat),
    expectedLen fc (fun k => if k = 0 then b else W k) avail = expectedLen fc W avail)

/-- R129: SHAPE_LEN. -/
def Obligations.ShapeLenSetsResult : Prop :=
  issues 0x10 .shapeLen ∧
  (∀ (fc : Byte) (s : State), s.len.toNat < s.off.toNat → exec (.shapeLen fc) s = .next (rejected s 3)) ∧
  (∀ (fc : Byte) (s : State), s.off.toNat ≤ s.len.toNat → lenInBuf s →
    ∃ W n, reading s s.off.toNat (s.len.toNat - s.off.toNat) W ∧ exec (.shapeLen fc) s = .next { s with
      expLen := BitVec.ofNat 16 ((expectedLen fc W (s.len.toNat - s.off.toNat)).getD 0)
      lenValid := (expectedLen fc W (s.len.toNat - s.off.toNat)).isSome
      lastErr := false, draws := n, responses := ⟨0, .ok⟩ :: s.responses }) ∧
  (∀ (fc : Byte) (W : Nat → Byte), expectedLen fc W 0 = none) ∧
  expectedLen 0x03 (viewOf [0x01, 0x03, 0x00, 0x00, 0x00, 0x01, 0x84, 0x0A]) 8 = some 8

/-- R130: SHAPE_LEN_AT: the function code is byte 1 of the view; below two bytes there is none. -/
def Obligations.ShapeLenAtSetsResult : Prop :=
  issues 0x11 .shapeLenAt ∧
  (∀ (d : Byte) (s : State), s.len.toNat < s.off.toNat → exec (.shapeLenAt d) s = .next (rejected s 3)) ∧
  (∀ (d : Byte) (s : State), s.off.toNat ≤ s.len.toNat → lenInBuf s → s.len.toNat - s.off.toNat < 2 →
    ∃ n, exec (.shapeLenAt d) s = .next { s with
      expLen := 0, lenValid := false, lastErr := false, draws := n, responses := ⟨0, .ok⟩ :: s.responses }) ∧
  (∀ (d : Byte) (s : State), s.off.toNat ≤ s.len.toNat → lenInBuf s → 2 ≤ s.len.toNat - s.off.toNat →
    ∃ W n, reading s s.off.toNat (s.len.toNat - s.off.toNat) W ∧ exec (.shapeLenAt d) s = .next { s with
      expLen := BitVec.ofNat 16 ((expectedLen (W 1) W (s.len.toNat - s.off.toNat)).getD 0)
      lenValid := (expectedLen (W 1) W (s.len.toNat - s.off.toNat)).isSome
      lastErr := false, draws := n, responses := ⟨0, .ok⟩ :: s.responses }) ∧
  expectedLen 0x03 (viewOf [0x01, 0x03, 0x02, 0x00, 0x2A, 0xB9, 0xC4]) 7 = some 7

/-- R131: SHAPE_CHECK. -/
def Obligations.ShapeCheckTestsWindow : Prop :=
  issues 0x12 .shapeCheck ∧
  (∀ (d : Byte) (s : State), s.len.toNat < s.off.toNat + s.wlen.toNat →
    exec (.shapeCheck d) s = .next (rejected s 3)) ∧
  (∀ (d : Byte) (s : State), s.off.toNat + s.wlen.toNat ≤ s.len.toNat → lenInBuf s →
    ∃ W n, reading s s.off.toNat s.wlen.toNat W ∧ exec (.shapeCheck d) s = .next { s with
      shapeOk := plausibleShape W s.wlen.toNat, lastErr := false, draws := n
      responses := ⟨0, .ok⟩ :: s.responses }) ∧
  (∀ (W : Nat → Byte) (n : Nat), n < 2 → plausibleShape W n = false) ∧
  plausibleShape (viewOf [0x11, 0x05, 0x00, 0xAC, 0xFF, 0x00, 0x4E, 0x8B]) 8 = true

/-- R132: FRAME_CHECK. Its three results come from readings that agree on every byte that was written (entry 10). -/
def Obligations.FrameCheckTestsWindow : Prop :=
  issues 0x13 .frameCheck ∧
  (∀ (d : Byte) (s : State), s.len.toNat < s.off.toNat + s.wlen.toNat →
    exec (.frameCheck d) s = .next (rejected s 3)) ∧
  (∀ (d : Byte) (s : State), s.off.toNat + s.wlen.toNat ≤ s.len.toNat → lenInBuf s → s.wlen.toNat < 2 →
    ∃ n, exec (.frameCheck d) s = .next { s with
      shapeOk := false, crcOk := false, lastErr := false, draws := n
      responses := ⟨0, .ok⟩ :: s.responses }) ∧
  (∀ (d : Byte) (s : State), s.off.toNat + s.wlen.toNat ≤ s.len.toNat → lenInBuf s → 2 ≤ s.wlen.toNat →
    ∃ V W W' n, reading s s.off.toNat s.wlen.toNat V ∧ reading s s.off.toNat s.wlen.toNat W ∧
      reading s s.off.toNat s.wlen.toNat W' ∧ exec (.frameCheck d) s = .next { s with
        shapeOk := plausibleShape V s.wlen.toNat, crc := crcCompute W (s.wlen.toNat - 2)
        crcOk := crcVerify W' s.wlen.toNat, lastErr := false, draws := n
        responses := ⟨0, .ok⟩ :: s.responses }) ∧
  (plausibleShape (viewOf [0x01, 0x83, 0x02, 0xC0]) 4 = false ∧
    crcVerify (viewOf [0x01, 0x83, 0x02, 0xC0]) 4 = false) ∧
  (plausibleShape (viewOf [0x01, 0x83, 0x02, 0xC0, 0xF1, 0x00]) 6 = false ∧
    crcVerify (viewOf [0x01, 0x83, 0x02, 0xC0, 0xF1, 0x00]) 6 = true) ∧
  (plausibleShape (viewOf [0x01, 0x03, 0x02, 0x00, 0x2A, 0xB9, 0xC4]) 7 = true ∧
    crcVerify (viewOf [0x01, 0x03, 0x02, 0x00, 0x2A, 0xB9, 0xC4]) 7 = false) ∧
  (plausibleShape (viewOf [0x01, 0x03, 0x00, 0x00, 0x00, 0x01, 0x84, 0x0A]) 8 = true ∧
    crcVerify (viewOf [0x01, 0x03, 0x00, 0x00, 0x00, 0x01, 0x84, 0x0A]) 8 = true)

/-- R132: FRAME_CHECK leaves what SHAPE_CHECK and then CRC_VERIFY leave, but for the answers: one access is
answered, not two. Both sides take the same free draws for bytes never written (entry 4). -/
def Obligations.FrameCheckIsBothChecks : Prop :=
  ∀ (d d' d'' : Byte) (s t u : State), lenInBuf s → exec (.shapeCheck d) s = .next t → t.lastErr = false →
    exec (.crcVerify d') t = .next u →
    exec (.frameCheck d'') s = .next { u with responses := ⟨0, .ok⟩ :: s.responses }

/-! ## Buffer, error control and register access -/

/-- R150: NOP. -/
def Obligations.NopOnlyClearsLastErr : Prop :=
  issues 0x00 .nop ∧ ∀ (d : Byte) (s : State), exec (.nop d) s =
    .next { s with lastErr := false, responses := ⟨0, .ok⟩ :: s.responses }

/-- R151: BUF_CLEAR: LEN becomes 0 and every byte of BUF keeps its value. -/
def Obligations.BufClearKeepsBytes : Prop :=
  issues 0x20 .bufClear ∧ ∀ (d : Byte) (s : State), exec (.bufClear d) s =
    .next { s with len := 0, lastErr := false, responses := ⟨0, .ok⟩ :: s.responses }

/-- R152: ERR_CLEAR; rejected, it does not clear ERRCODE; no other operation lowers ERRCODE. -/
def Obligations.ErrClearClearsCode : Prop :=
  issues 0x21 .errClear ∧
  (∀ (d : Byte) (s : State), exec (.errClear d) s =
    .next { s with errCode := 0, lastErr := false, responses := ⟨0, .ok⟩ :: s.responses }) ∧
  (∀ (w : BusWord) (s : State), w.extractLsb' 16 16 ≠ 0 → s.errCode ≠ 0 →
    ∃ t, exec (.wrCmd w) s = .next t ∧ t.errCode = s.errCode) ∧
  ∀ (i : Instr) (s t : State), exec i s = .next t → t.errCode.toNat < s.errCode.toNat → runs i .errClear

/-- R153: LEN write. -/
def Obligations.LenWriteSetsLen : Prop :=
  (∀ w : BusWord, decodeAccess ⟨.write, 0x010, w⟩ = .wrLen w) ∧
  (∀ (w : BusWord) (s : State), 512 < (w.extractLsb' 0 16).toNat → exec (.wrLen w) s = .next (rejected s 4)) ∧
  (∀ (w : BusWord) (s : State), (w.extractLsb' 0 16).toNat ≤ 512 → exec (.wrLen w) s =
    .next { s with len := w.extractLsb' 0 16, lastErr := false, responses := ⟨0, .ok⟩ :: s.responses }) ∧
  (0x00010000#32).extractLsb' 0 16 = 0#16

/-- R154 and R155: OFF and WLEN writes take every value. -/
def Obligations.OffAndWlenWritesTakeAnyValue : Prop :=
  (∀ w : BusWord, decodeAccess ⟨.write, 0x014, w⟩ = .wrOff w ∧ decodeAccess ⟨.write, 0x018, w⟩ = .wrWlen w) ∧
  ∀ (w : BusWord) (s : State),
    exec (.wrOff w) s = .next { s with
      off := w.extractLsb' 0 16, lastErr := false, responses := ⟨0, .ok⟩ :: s.responses } ∧
    exec (.wrWlen w) s = .next { s with
      wlen := w.extractLsb' 0 16, lastErr := false, responses := ⟨0, .ok⟩ :: s.responses }

/-- R156: PUSH stores its byte at index LEN and nowhere else, and LEN grows by one; in a full buffer it is rejected. -/
def Obligations.PushAppendsByte : Prop :=
  (∀ w : BusWord, decodeAccess ⟨.write, 0x020, w⟩ = .wrPush w) ∧
  (∀ (w : BusWord) (s : State), s.len.toNat = 512 → exec (.wrPush w) s = .next (rejected s 5)) ∧
  (∀ (w : BusWord) (s : State), s.len.toNat < 512 → ∃ m, exec (.wrPush w) s = .next { s with
      buf := m, len := BitVec.ofNat 16 (s.len.toNat + 1), lastErr := false
      responses := ⟨0, .ok⟩ :: s.responses } ∧
    Memory.read? m s.len.toNat = some (w.extractLsb' 0 8) ∧
    ∀ x, x ≠ s.len.toNat → Memory.read? m x = Memory.read? s.buf x)

/-- R156, R79 (`PUSHB`): pushes append their bytes in order, and change LEN, LAST_ERR and those bytes only. Each is
answered `respond(0, OK)`. -/
def Obligations.PushSequenceAppendsBytes : Prop :=
  ∀ (bs : List Byte) (s : State) (rest : List HostEvent), bs ≠ [] → s.len.toNat + bs.length ≤ 512 →
    s.pending = (bs.map fun b => HostEvent.access ⟨.write, 0x020, b.setWidth 32⟩) ++ rest →
    ∃ m, Host.Core.run Sys2Proof.core bs.length s = .next
        ({ s with buf := m, len := BitVec.ofNat 16 (s.len.toNat + bs.length), lastErr := false, pending := rest
                  responses := List.replicate bs.length ⟨0, .ok⟩ ++ s.responses } : State) ∧
      ∀ x, Memory.read? m x =
        if s.len.toNat ≤ x ∧ x < s.len.toNat + bs.length then bs[x - s.len.toNat]? else Memory.read? s.buf x

/-- R157, R54: a BUF window write stores its four bytes at 4k to 4k+3, lowest bits first, and changes no other byte,
LEN included. -/
def Obligations.BufWriteStoresWord : Prop :=
  (∀ (k : Nat) (o : Offset) (w : BusWord), k < 128 → o.toNat = 0x400 + 4 * k →
    decodeAccess ⟨.write, o, w⟩ = .wrBuf k w) ∧
  ∀ (k : Nat) (w : BusWord) (s : State), k < 128 → ∃ m, exec (.wrBuf k w) s = .next { s with
      buf := m, lastErr := false, responses := ⟨0, .ok⟩ :: s.responses } ∧
    (∀ i < 4, Memory.read? m (4 * k + i) = some (w.extractLsb' (8 * i) 8)) ∧
    ∀ x, (x < 4 * k ∨ 4 * k + 4 ≤ x) → Memory.read? m x = Memory.read? s.buf x

/-- R159: a BUF window read answers its four bytes, at or above LEN too, and changes no state but the model's own
count of draws. -/
def Obligations.BufReadAnswersWord : Prop :=
  (∀ (k : Nat) (o : Offset) (w : BusWord), k < 128 → o.toNat = 0x400 + 4 * k →
    decodeAccess ⟨.read, o, w⟩ = .rdBuf k) ∧
  ∀ (k : Nat) (s : State), k < 128 → ∃ W n, reading s (4 * k) 4 W ∧ exec (.rdBuf k) s = .next { s with
    draws := n
    responses := ⟨BitVec.ofNat 32 ((W 0).toNat + 256 * (W 1).toNat + 65536 * (W 2).toNat +
      16777216 * (W 3).toNat), .ok⟩ :: s.responses }

/-- R54: a read of a BUF window word just written answers the word written. -/
def Obligations.BufWordReadsBack : Prop :=
  ∀ (k : Nat) (w : BusWord) (s t : State), exec (.wrBuf k w) s = .next t →
    ∃ n, exec (.rdBuf k) t = .next { t with draws := n, responses := ⟨w, .ok⟩ :: t.responses }

/-- R158: the read value of each named register (R32 to R41); no state changes. CFG reads the buffer size, 512 in this
hardware, and in a block of any legal size that size (R5, R41). -/
def Obligations.RegisterReadValues : Prop :=
  (∀ (r : Reg) (w : BusWord), decodeAccess ⟨.read, r.offset, w⟩ = r.readInstr) ∧
  ∀ s : State,
    exec .rdId s = .next { s with responses := ⟨0x4D424301, .ok⟩ :: s.responses } ∧
    exec .rdCmd s = .next { s with responses := ⟨0, .ok⟩ :: s.responses } ∧
    exec .rdStatus s = .next { s with
      responses := ⟨BitVec.ofNat 32 (16 * s.errCode.toNat + s.lastErr.toNat), .ok⟩ :: s.responses } ∧
    exec .rdCrc s = .next { s with responses := ⟨BitVec.ofNat 32 s.crc.toNat, .ok⟩ :: s.responses } ∧
    exec .rdLen s = .next { s with responses := ⟨BitVec.ofNat 32 s.len.toNat, .ok⟩ :: s.responses } ∧
    exec .rdOff s = .next { s with responses := ⟨BitVec.ofNat 32 s.off.toNat, .ok⟩ :: s.responses } ∧
    exec .rdWlen s = .next { s with responses := ⟨BitVec.ofNat 32 s.wlen.toNat, .ok⟩ :: s.responses } ∧
    exec .rdResult s = .next { s with
      responses := ⟨BitVec.ofNat 32 (s.expLen.toNat + 65536 * s.lenValid.toNat + 131072 * s.crcOk.toNat +
        262144 * s.shapeOk.toNat), .ok⟩ :: s.responses } ∧
    exec .rdPush s = .next { s with responses := ⟨0, .ok⟩ :: s.responses } ∧
    exec .rdCfg s = .next { s with responses := ⟨512, .ok⟩ :: s.responses } ∧
    ∀ size, Config.legalSize size → ∃ v : BusWord, v.toNat = size ∧
      execSized size .rdCfg s = .next { s with responses := ⟨v, .ok⟩ :: s.responses }

/-- R160 and R43: a write to a read-only register and an access to a reserved offset answer OK with data 0, a read of
a write-only register answers 0, and nothing changes, STATUS included. -/
def Obligations.IgnoredAccessesChangeNothing : Prop :=
  (∀ (s : State) (w : BusWord) (i : Instr),
    i ∈ [Instr.wrIdIgnored w, .wrStatusIgnored w, .wrCrcIgnored w, .wrResultIgnored w, .wrCfgIgnored w, .rdCmd, .rdPush] →
    exec i s = .next { s with responses := ⟨0, .ok⟩ :: s.responses }) ∧
  (∀ w : BusWord, decodeAccess ⟨.write, 0x000, w⟩ = .wrIdIgnored w ∧
    decodeAccess ⟨.write, 0x008, w⟩ = .wrStatusIgnored w ∧ decodeAccess ⟨.write, 0x00C, w⟩ = .wrCrcIgnored w ∧
    decodeAccess ⟨.write, 0x01C, w⟩ = .wrResultIgnored w ∧ decodeAccess ⟨.write, 0x024, w⟩ = .wrCfgIgnored w ∧
    decodeAccess ⟨.read, 0x004, w⟩ = .rdCmd ∧ decodeAccess ⟨.read, 0x020, w⟩ = .rdPush) ∧
  (∀ (s : State) (d : Dir) (o : Offset) (w : BusWord),
    exec (.rsvdAccess d o w) s = .next { s with responses := ⟨0, .ok⟩ :: s.responses }) ∧
  (∀ (d : Dir) (o : Offset) (w : BusWord), o.toNat % 4 = 0 →
    (0x028 ≤ o.toNat ∧ o.toNat ≤ 0x3FC) ∨ (0x400 + 512 ≤ o.toNat ∧ o.toNat ≤ 0xFFC) →
    decodeAccess ⟨d, o, w⟩ = .rsvdAccess d o w)

/-- R52: a misaligned access, in either direction and at every offset, answers ERR with data 0, records E_BUS, and
reads or writes nothing else. -/
def Obligations.MisalignedAccessRejected : Prop :=
  (∀ a : Access, a.offset.extractLsb' 0 2 ≠ 0 → decodeAccess a = .misaligned a.dir a.offset a.wdata) ∧
  (∀ (d : Dir) (o : Offset) (w : BusWord) (s : State), exec (.misaligned d o w) s = .next { s with
    lastErr := true, errCode := if s.errCode = 0 then 6 else s.errCode
    responses := ⟨0, .err⟩ :: s.responses })

/-! ## Errors -/

/-- R171: an operation that is rejected, for each cause of R170, has written nothing but LAST_ERR and an ERRCODE that
was 0: CRC, RESULT, LEN and BUF are unchanged, and a rejected ERR_CLEAR has cleared nothing. It gets an answer
(R173). -/
def Obligations.RejectionWritesOnlyStatus : Prop :=
  ∀ (i : Instr) (s : State) (code : BitVec 4), cause s i code → 1 ≤ code.toNat ∧ code.toNat ≤ 6 ∧
    ∃ a, exec i s = .next { s with
      lastErr := true, errCode := if s.errCode = 0 then code else s.errCode, responses := a :: s.responses }

/-- R172: a counted operation with no cause of R170 leaves LAST_ERR = 0 and ERRCODE as it was, ERR_CLEAR excepted; one
with a cause leaves LAST_ERR = 1; an operation that is not counted leaves STATUS as it was. -/
def Obligations.CountedOperationsUpdateStatus : Prop :=
  ∀ (i : Instr) (s t : State), exec i s = .next t →
    (counted i = true → (∀ code, ¬cause s i code) →
      t.lastErr = false ∧ (¬runs i .errClear → t.errCode = s.errCode)) ∧
    (runs i .errClear → t.lastErr = false ∧ t.errCode = 0) ∧
    (∀ code, cause s i code → counted i = true ∧ t.lastErr = true) ∧
    (counted i = false → t.lastErr = s.lastErr ∧ t.errCode = s.errCode)

/-- R173: every access is answered once, ERR exactly where it is misaligned. -/
def Obligations.OnlyMisalignedAnswersErr : Prop :=
  ∀ (i : Instr) (s t : State), exec i s = .next t →
    ∃ data resp, t.responses = ⟨data, resp⟩ :: s.responses ∧
      (resp = .err ↔ ∃ d o w, i = .misaligned d o w)

/-- R174: of several errors of one access the first in the order E_BUS, E_RSVD, E_OPCODE, E_RANGE is reported; a LEN
write and a PUSH have one check each. -/
def Obligations.ErrorPriority : Prop :=
  ∀ (s : State) (a : Access) (rest : List HostEvent), s.pending = .access a :: rest →
    (a.offset.toNat % 4 ≠ 0 → step s = .next { s with
      lastErr := true, errCode := if s.errCode = 0 then 6 else s.errCode, pending := rest
      responses := ⟨0, .err⟩ :: s.responses }) ∧
    (a.dir = .write → a.offset = 0x004 →
      (a.wdata.extractLsb' 16 16 ≠ 0 → step s = .next (rejected { s with pending := rest } 1)) ∧
      (a.wdata.extractLsb' 16 16 = 0 → (∀ op : Opcode, a.wdata.extractLsb' 0 8 ≠ op.code) →
        step s = .next (rejected { s with pending := rest } 2)) ∧
      (∀ op : Opcode, a.wdata.extractLsb' 16 16 = 0 → a.wdata.extractLsb' 0 8 = op.code → ¬inRange s op →
        step s = .next (rejected { s with pending := rest } 3))) ∧
    (a.dir = .write → a.offset = 0x010 → 512 < (a.wdata.extractLsb' 0 16).toNat →
      step s = .next (rejected { s with pending := rest } 4)) ∧
    (a.dir = .write → a.offset = 0x020 → s.len.toNat = 512 →
      step s = .next (rejected { s with pending := rest } 5))

/-- R175: when each command is rejected with E_RANGE: exactly where its range check fails, without wrap, and the
commands without a range check never; OFF and WLEN writes are never rejected. -/
def Obligations.RangeCheckPerCommand : Prop :=
  ∀ (op : Opcode) (d : Byte) (s : State), lenInBuf s →
    (inRange s op → ∃ t, exec (op.instr d) s = .next t ∧ t.lastErr = false) ∧
    (¬inRange s op → exec (op.instr d) s = .next (rejected s 3)) ∧
    ∀ w : BusWord, (∃ t, exec (.wrOff w) s = .next t ∧ t.lastErr = false) ∧
      ∃ t, exec (.wrWlen w) s = .next t ∧ t.lastErr = false

/-- R177: a non-zero ERRCODE changes only by ERR_CLEAR or reset, and then to 0; a rejection while it is non-zero only
sets LAST_ERR. -/
def Obligations.ErrCodeIsSticky : Prop :=
  (∀ s t : State, step s = .next t → s.errCode ≠ 0 → t.errCode ≠ s.errCode → t.errCode = 0 ∧
    ((∃ rest, s.pending = .reset :: rest) ∨ (∃ a rest, s.pending = .resetDuring a :: rest) ∨
      ∃ a rest, s.pending = .access a :: rest ∧ runs (decodeAccess a) .errClear)) ∧
  (∀ (i : Instr) (s : State) (code : BitVec 4), cause s i code → s.errCode ≠ 0 →
    ∃ a, exec i s = .next { s with lastErr := true, responses := a :: s.responses })

/-- R185: a CRC mismatch and an implausible shape are no rejection: a command whose range check passes leaves
LAST_ERR = 0 and ERRCODE as it was, ERR_CLEAR's clear excepted, whatever its result. -/
def Obligations.MismatchIsNoRejection : Prop :=
  ∀ (op : Opcode) (d : Byte) (s t : State), op ∈ windowOps ++ viewOps → inRange s op →
    exec (op.instr d) s = .next t → t.lastErr = false ∧ t.errCode = s.errCode

/-! ## The whole machine -/

/-- R58: a word-aligned read changes no state but the model's own count of draws and list of answers. -/
def Obligations.AlignedReadChangesNothing : Prop :=
  ∀ (o : Offset) (w : BusWord) (s t : State), o.toNat % 4 = 0 → exec (decodeAccess ⟨.read, o, w⟩) s = .next t →
    t = { s with draws := t.draws, responses := t.responses }

/-- R20, R30: each element of the state is written only by the operations R20 names for it. -/
def Obligations.OnlyNamedWritersWrite : Prop :=
  ∀ (i : Instr) (s t : State), exec i s = .next t →
    (t.crc ≠ s.crc → runs i .crcInit ∨ runs i .crcByte ∨ runs i .crcBuf ∨ runs i .crcVerify ∨ runs i .frameCheck) ∧
    (t.len ≠ s.len → (∃ w, i = .wrLen w) ∨ (∃ w, i = .wrPush w) ∨ runs i .bufClear) ∧
    (t.off ≠ s.off → ∃ w, i = .wrOff w) ∧
    (t.wlen ≠ s.wlen → ∃ w, i = .wrWlen w) ∧
    (t.expLen ≠ s.expLen ∨ t.lenValid ≠ s.lenValid → runs i .shapeLen ∨ runs i .shapeLenAt) ∧
    (t.crcOk ≠ s.crcOk → runs i .crcVerify ∨ runs i .frameCheck) ∧
    (t.shapeOk ≠ s.shapeOk → runs i .shapeCheck ∨ runs i .frameCheck) ∧
    (t.lastErr ≠ s.lastErr → counted i = true) ∧
    (t.errCode ≠ s.errCode → (∃ code, cause s i code) ∨ runs i .errClear) ∧
    (t.buf ≠ s.buf → (∃ k w, i = .wrBuf k w) ∨ ∃ w, i = .wrPush w) ∧
    t.pending = s.pending

/-- R28, R197: a byte that has been written keeps its value over every step, reset included, unless the step is a
PUSH at its index or a BUF window write of its word. -/
def Obligations.WrittenBytesPersist : Prop :=
  ∀ (s t : State) (x : Nat) (b : Byte), step s = .next t → Memory.read? s.buf x = some b →
    Memory.read? t.buf x = some b ∨ ∃ a rest,
      (s.pending = .access a :: rest ∨ s.pending = .resetDuring a :: rest) ∧ a.dir = .write ∧
      (a.offset = 0x020 ∧ x = s.len.toNat ∨
        ∃ k, a.offset.toNat = 0x400 + 4 * k ∧ 4 * k ≤ x ∧ x < 4 * k + 4)

/-- R66, R50, R120: a command's outcome depends on no byte of BUF at or above LEN, and it writes no byte of BUF. The
two runs take the same free draws for bytes never written (entry 4). -/
def Obligations.CommandsReadOnlyBelowLen : Prop :=
  ∀ (op : Opcode) (d : Byte) (s t : State) (m : Memory),
    (∀ a < s.len.toNat, Memory.read? m a = Memory.read? s.buf a) → exec (op.instr d) s = .next t →
    t.buf = s.buf ∧ exec (op.instr d) { s with buf := m } = .next { t with buf := m }

/-- The invariant holds after reset (R190). -/
def Obligations.ResetMeetsInvariant : Prop := Safety.Inv State.reset

/-- R29, R34, R39, R171 with R172, and the canonical form of BUF (entry 7): every step keeps the invariant, reset and
reset during an access included. -/
def Obligations.StepKeepsInvariant : Prop :=
  ∀ s t : State, Safety.Inv s → step s = .next t → Safety.Inv t

/-- R199: every access completes: from a state with LEN <= `P_BUF_SIZE` (R29) the step of a pending access answers a
next state, in which that access has been received and answered once. -/
def Obligations.EveryAccessCompletes : Prop :=
  ∀ (s : State) (a : Access) (rest : List HostEvent), lenInBuf s → s.pending = .access a :: rest →
    ∃ t r, step s = .next t ∧ t.pending = rest ∧ t.responses = r :: s.responses

/-- No instruction is refused, and one faults exactly where it would use an index outside BUF: a window word number of
128 or more; a PUSH with LEN > 512; a command whose window or view lies within LEN and ends above 512, run by itself or
through CMD. So in a state with LEN <= `P_BUF_SIZE`, which R29 asks, no well-formed instruction faults. The fault is the
model's own (entry 9; R10 gives `MemRead` and `MemWrite` below `P_BUF_SIZE` only). -/
def Obligations.StopsExactlyOutsideBuf : Prop :=
  (∀ (i : Instr) (s : State) (r : Refusal), exec i s ≠ .refused r) ∧
  (∀ (i : Instr) (s : State) (r : Fault), exec i s = .fault r ↔ r = .bufIndexOutOfRange ∧
    ((∃ k, 128 ≤ k ∧ (i = .rdBuf k ∨ ∃ w, i = .wrBuf k w)) ∨
      (512 < s.len.toNat ∧ ∃ w, i = .wrPush w) ∨
      (∃ op ∈ windowOps, runs i op ∧ 512 < s.off.toNat + s.wlen.toNat ∧
        s.off.toNat + s.wlen.toNat ≤ s.len.toNat) ∨
      (∃ op ∈ viewOps, runs i op ∧ 512 < s.len.toNat ∧ s.off.toNat ≤ s.len.toNat))) ∧
  (∀ (i : Instr) (s : State) (r : Fault), lenInBuf s → i.wellFormed = true → exec i s ≠ .fault r)
end

