-- ==== Sys2Proof/Laws/Decode.lean ====
section
/-! SUPPORT. The fields of a command word, and the opcode and register maps read both ways. -/

namespace Sys2Proof

theorem Config.bufSize_eq : Config.bufSize = 512 := rfl

theorem Config.windowBase_eq : Config.windowBase = 0x400 := rfl

theorem Config.spaceSize_eq : Config.spaceSize = 4096 := rfl

/-- The size of this hardware is one of the legal sizes of R5. -/
theorem Config.bufSize_legal : Config.legalSize Config.bufSize := ⟨rfl, by decide, by decide⟩

@[simp] theorem opcodeAt_code (op : Opcode) : opcodeAt op.code = some op := by cases op <;> rfl

@[simp] theorem regAt_offset (r : Reg) : regAt r.offset = some r := by cases r <;> rfl

@[simp] theorem aligned_offset (r : Reg) : Offset.aligned r.offset = true := by cases r <;> rfl

@[simp] theorem rsvdField_cmdWord (op : Opcode) (d : Byte) : rsvdField (cmdWord op d) = 0 := by
  ext i hi
  have h1 : d.getLsbD (16 + i - 8) = false := BitVec.getLsbD_of_ge _ _ (by omega)
  have h2 : op.code.getLsbD (16 + i) = false := BitVec.getLsbD_of_ge _ _ (by omega)
  simp [rsvdField, cmdWord, h1, h2]

@[simp] theorem dataField_cmdWord (op : Opcode) (d : Byte) : dataField (cmdWord op d) = d := by
  ext i hi
  have h1 : 8 + i < 32 := by omega
  simp [dataField, cmdWord, hi, h1, BitVec.getLsbD_eq_getElem]

@[simp] theorem opField_cmdWord (op : Opcode) (d : Byte) : opField (cmdWord op d) = op.code := by
  ext i hi
  have h2 : i < 32 := by omega
  simp [opField, cmdWord, hi, h2, BitVec.getLsbD_eq_getElem]

/-- The command decoder gives back the instruction of a command word. -/
@[simp] theorem decodeCmd_cmdWord (op : Opcode) (d : Byte) : decodeCmd (cmdWord op d) = .ok (op.instr d) := by
  simp [decodeCmd]

/-- An OP value is that of an opcode exactly where the map says so. -/
theorem opcodeAt_eq_some {x : Byte} {op : Opcode} : opcodeAt x = some op ↔ x = op.code := by
  constructor
  · intro h
    unfold opcodeAt at h
    repeat' split at h
    all_goals first
      | (cases h; assumption)
      | cases h
  · rintro rfl
    exact opcodeAt_code op

theorem regAt_eq_some {o : Offset} {r : Reg} : regAt o = some r ↔ o = r.offset := by
  constructor
  · intro h
    unfold regAt at h
    repeat' split at h
    all_goals first
      | (cases h; assumption)
      | cases h
  · rintro rfl
    exact regAt_offset r

theorem regAt_eq_none {o : Offset} (h : 0x028 ≤ o.toNat) : regAt o = none := by
  cases hr : regAt o with
  | none => rfl
  | some r =>
    rw [regAt_eq_some] at hr
    subst hr
    cases r <;> simp [Reg.offset] at h

/-- The BUF window has one word per four bytes (R42). -/
theorem windowWord_size_iff {k size : Nat} (hs : Config.legalSize size) : windowWord k size = true ↔ 4 * k < size := by
  rw [windowWord, decide_eq_true_eq]
  have := hs.1
  omega

theorem windowWord_iff {k : Nat} : windowWord k = true ↔ k < 128 := by
  have hb := Config.bufSize_eq
  rw [windowWord_size_iff Config.bufSize_legal]
  omega

/-- The BUF window fits in the register space (R42). -/
theorem windowOffset_toNat {k size : Nat} (hs : Config.legalSize size) (hk : windowWord k size = true) :
    (windowOffset k).toNat = 0x400 + 4 * k := by
  rw [windowWord_size_iff hs] at hk
  have hb := Config.windowBase_eq
  have hl := hs.2.2
  simp only [windowOffset, BitVec.toNat_ofNat]
  omega

/-- The access decoder at a named register. -/
theorem decodeAccess_reg (d : Dir) (r : Reg) (w : BusWord) (size : Nat := Config.bufSize) :
    decodeAccess ⟨d, r.offset, w⟩ size = match d with | .read => r.readInstr | .write => r.writeInstr w := by
  cases d <;> simp [decodeAccess]

/-- The access decoder in the BUF window. -/
theorem decodeAccess_window (d : Dir) {k size : Nat} (w : BusWord) (hs : Config.legalSize size)
    (hk : windowWord k size = true) :
    decodeAccess ⟨d, windowOffset k, w⟩ size = match d with | .read => .rdBuf k | .write => .wrBuf k w := by
  have ho := windowOffset_toNat hs hk
  rw [windowWord_size_iff hs] at hk
  have hb := Config.windowBase_eq
  have ha : Offset.aligned (windowOffset k) = true := by
    rw [Offset.aligned, ho, beq_iff_eq]; omega
  have hr : regAt (windowOffset k) = none := regAt_eq_none (by omega)
  have hw : windowWordAt (windowOffset k) size = some k := by
    rw [windowWordAt, if_pos (by omega), ho]
    congr 1
    omega
  cases d <;> simp [decodeAccess, ha, hr, hw]

theorem reserved_size_iff {o : Offset} {size : Nat} : Offset.reserved o size = true ↔ Offset.aligned o = true ∧
    (0x028 ≤ o.toNat ∧ o.toNat ≤ 0x3FC ∨ 0x400 + size ≤ o.toNat ∧ o.toNat ≤ 0xFFC) := by
  rw [Offset.reserved, Config.windowBase_eq]
  simp

theorem reserved_iff {o : Offset} : Offset.reserved o = true ↔
    Offset.aligned o = true ∧ (0x028 ≤ o.toNat ∧ o.toNat ≤ 0x3FC ∨ 0x600 ≤ o.toNat ∧ o.toNat ≤ 0xFFC) :=
  reserved_size_iff

/-- The access decoder at a reserved offset. -/
theorem decodeAccess_reserved (d : Dir) {o : Offset} {size : Nat} (w : BusWord) (h : Offset.reserved o size = true) :
    decodeAccess ⟨d, o, w⟩ size = .rsvdAccess d o w := by
  rw [reserved_size_iff] at h
  have hb := Config.windowBase_eq
  have hr : regAt o = none := regAt_eq_none (by omega)
  have hw : windowWordAt o size = none := by
    rw [windowWordAt, if_neg (by omega)]
  cases d <;> simp [decodeAccess, h.1, hr, hw]

/-- The access decoder at a misaligned offset. -/
theorem decodeAccess_misaligned (d : Dir) {o : Offset} (w : BusWord) (h : Offset.aligned o = false)
    (size : Nat := Config.bufSize) : decodeAccess ⟨d, o, w⟩ size = .misaligned d o w := by
  simp [decodeAccess, h]

/-- The BUF window word at its offset. -/
theorem eq_windowOffset {k : Nat} {o : Offset} (hk : k < 128) (ho : o.toNat = 0x400 + 4 * k) : o = windowOffset k := by
  apply BitVec.eq_of_toNat_eq
  rw [windowOffset_toNat Config.bufSize_legal (windowWord_iff.mpr hk), ho]

/-- A command word with RSVD = 0 is put together from its fields. -/
theorem cmdWord_fields (w : BusWord) (op : Opcode) (h0 : rsvdField w = 0) (h : opField w = op.code) :
    cmdWord op (dataField w) = w := by
  rw [cmdWord, ← h]
  ext i hi
  have hr : ∀ k (hk : k < 16), w.getLsbD (16 + k) = false := by
    intro k hk
    have := congrArg (fun x : Half => x.getLsbD k) h0
    simpa [rsvdField, hk] using this
  simp only [dataField, opField, BitVec.getElem_or, BitVec.getElem_shiftLeft, BitVec.getElem_setWidth]
  by_cases h8 : i < 8
  · simp [h8, BitVec.getLsbD_eq_getElem, hi]
  · by_cases h16 : i < 16
    · simp [h8, show i - 8 < 8 by omega, show 8 + (i - 8) = i by omega, BitVec.getLsbD_eq_getElem, hi]
    · have := hr (i - 16) (by omega)
      rw [show 16 + (i - 16) = i by omega, BitVec.getLsbD_eq_getElem hi] at this
      simp [h8, this, show ¬ i - 8 < 8 by omega]

end Sys2Proof
end

