-- ==== Sys2Proof/Laws/Memory.lean ====
section
/-! SUPPORT. BUF: a read after a write, the bytes a write leaves alone, and the canonical form. -/

namespace Sys2Proof.Machine

@[simp] theorem Memory.read?_nil (a : Nat) : Memory.read? [] a = none := rfl

/-- An index below every listed one has not been written. -/
theorem Memory.read?_of_rising {lo : Nat} {m : Memory} (h : Memory.rising lo m = true) {a : Nat} (ha : a < lo) :
    Memory.read? m a = none := by
  induction m generalizing lo with
  | nil => rfl
  | cons c m ih =>
    obtain ⟨x, b⟩ := c
    simp only [Memory.rising, Bool.and_eq_true, decide_eq_true_eq] at h
    rw [Memory.read?, if_neg (by omega)]
    exact ih h.2 (by omega)

/-- A read of the index just written gives the byte written. -/
@[simp] theorem Memory.read?_write_self (m : Memory) (a : Nat) (b : Byte) :
    Memory.read? (Memory.write m a b) a = some b := by
  induction m with
  | nil => simp [Memory.write, Memory.read?]
  | cons c m ih =>
    obtain ⟨x, d⟩ := c
    simp only [Memory.write]
    split
    · simp [Memory.read?]
    · split
      · simp [Memory.read?]
      · rw [Memory.read?, if_neg (by omega)]
        exact ih

/-- A write leaves every other index alone. -/
theorem Memory.read?_write_of_ne (m : Memory) {a x : Nat} (b : Byte) (h : x ≠ a) :
    Memory.read? (Memory.write m a b) x = Memory.read? m x := by
  induction m with
  | nil => simp [Memory.write, Memory.read?, h.symm]
  | cons c m ih =>
    obtain ⟨y, d⟩ := c
    simp only [Memory.write]
    split
    · rw [Memory.read?, if_neg (by omega)]
    · split
      · rw [Memory.read?, if_neg (by omega), Memory.read?, if_neg (by omega)]
      · by_cases hy : y = x
        · simp [Memory.read?, hy]
        · rw [Memory.read?, if_neg hy, Memory.read?, if_neg hy]
          exact ih

theorem Memory.read?_write (m : Memory) (a x : Nat) (b : Byte) :
    Memory.read? (Memory.write m a b) x = if x = a then some b else Memory.read? m x := by
  split
  · subst x; simp
  · exact Memory.read?_write_of_ne m b ‹_›

/-- Writing the bytes `bs` from index `a` on sets those indices and no other. -/
theorem Memory.read?_writeBytes (m : Memory) (a x : Nat) (bs : List Byte) :
    Memory.read? (Memory.writeBytes m a bs) x =
      if a ≤ x ∧ x < a + bs.length then bs[x - a]? else Memory.read? m x := by
  induction bs generalizing m a with
  | nil =>
    have h : ¬(a ≤ x ∧ x < a + 0) := by omega
    simp only [Memory.writeBytes, List.length_nil, h, if_false]
  | cons b bs ih =>
    rw [Memory.writeBytes, ih, Memory.read?_write, List.length_cons]
    rcases Nat.lt_trichotomy x a with h | h | h
    · have h1 : ¬(a + 1 ≤ x ∧ x < a + 1 + bs.length) := by omega
      have h2 : ¬(a ≤ x ∧ x < a + (bs.length + 1)) := by omega
      simp only [h1, h2, if_false, h.ne]
    · subst x
      simp
    · obtain ⟨k, rfl⟩ : ∃ k, x = a + 1 + k := ⟨x - (a + 1), by omega⟩
      have h1 : a + 1 + k - (a + 1) = k := by omega
      have h2 : a + 1 + k - a = k + 1 := by omega
      have h3 : a + 1 + k < a + 1 + bs.length ↔ k < bs.length := by omega
      have h4 : a + 1 + k < a + (bs.length + 1) ↔ k < bs.length := by omega
      simp [h1, h2, h3, h4, h.ne', show a ≤ a + 1 + k by omega]

/-- A write keeps the indices strictly rising. -/
theorem Memory.rising_write {lo : Nat} {m : Memory} {a : Nat} (b : Byte) (h : Memory.rising lo m = true)
    (ha : lo ≤ a) : Memory.rising lo (Memory.write m a b) = true := by
  induction m generalizing lo with
  | nil => simp [Memory.write, Memory.rising, ha]
  | cons c m ih =>
    obtain ⟨x, d⟩ := c
    simp only [Memory.rising, Bool.and_eq_true, decide_eq_true_eq] at h
    simp only [Memory.write]
    split
    · simp only [Memory.rising, Bool.and_eq_true, decide_eq_true_eq]
      exact ⟨ha, by omega, h.2⟩
    · split
      · subst a
        simp only [Memory.rising, Bool.and_eq_true, decide_eq_true_eq]
        exact ⟨ha, h.2⟩
      · simp only [Memory.rising, Bool.and_eq_true, decide_eq_true_eq]
        exact ⟨h.1, ih h.2 (by omega)⟩

theorem Memory.all_lt_write {n : Nat} {m : Memory} {a : Nat} (b : Byte)
    (h : (m.all fun c => decide (c.1 < n)) = true) (ha : a < n) :
    ((Memory.write m a b).all fun c => decide (c.1 < n)) = true := by
  induction m with
  | nil => simp [Memory.write, ha]
  | cons c m ih =>
    obtain ⟨x, d⟩ := c
    simp only [List.all_cons, Bool.and_eq_true, decide_eq_true_eq] at h
    simp only [Memory.write]
    split
    · simp only [List.all_cons, Bool.and_eq_true, decide_eq_true_eq]
      exact ⟨ha, h⟩
    · split
      · simp only [List.all_cons, Bool.and_eq_true, decide_eq_true_eq]
        exact ⟨ha, h.2⟩
      · simp only [List.all_cons, Bool.and_eq_true, decide_eq_true_eq]
        exact ⟨h.1, ih h.2⟩

/-- A write inside BUF keeps the canonical form. -/
theorem Memory.wf_write {m : Memory} {a size : Nat} (b : Byte) (h : Memory.wf m size = true) (ha : a < size) :
    Memory.wf (Memory.write m a b) size = true := by
  simp only [Memory.wf, Bool.and_eq_true] at h ⊢
  exact ⟨Memory.rising_write b h.1 (Nat.zero_le _), Memory.all_lt_write b h.2 ha⟩

/-- Writing bytes inside BUF keeps the canonical form. -/
theorem Memory.wf_writeBytes {m : Memory} {a size : Nat} {bs : List Byte} (h : Memory.wf m size = true)
    (ha : a + bs.length ≤ size) : Memory.wf (Memory.writeBytes m a bs) size = true := by
  induction bs generalizing m a with
  | nil => exact h
  | cons b bs ih =>
    simp only [List.length_cons] at ha
    exact ih (Memory.wf_write b h (by omega)) (by omega)

/-- The reset memory is in canonical form. -/
theorem Memory.wf_reset (size : Nat) : Memory.wf State.reset.buf size = true := rfl

/-- A read of a byte that has been written gives that byte. -/
theorem State.view_of_read {s : State} {a k : Nat} {b : Byte} (h : Memory.read? s.buf (a + k) = some b) :
    s.view a k = b := by
  simp [State.view, h]

end Sys2Proof.Machine
end

