-- ==== Sys2Proof/Laws/State.lean ====
section
/-! SUPPORT. One lemma per field per named update of the state, so that no proof unfolds a record update. -/

namespace Sys2Proof.Machine

/-! ## `State.drew` -/

@[simp] theorem State.drew_crc (s : State) (n : Nat) : (s.drew n).crc = s.crc := rfl
@[simp] theorem State.drew_len (s : State) (n : Nat) : (s.drew n).len = s.len := rfl
@[simp] theorem State.drew_off (s : State) (n : Nat) : (s.drew n).off = s.off := rfl
@[simp] theorem State.drew_wlen (s : State) (n : Nat) : (s.drew n).wlen = s.wlen := rfl
@[simp] theorem State.drew_expLen (s : State) (n : Nat) : (s.drew n).expLen = s.expLen := rfl
@[simp] theorem State.drew_lenValid (s : State) (n : Nat) : (s.drew n).lenValid = s.lenValid := rfl
@[simp] theorem State.drew_crcOk (s : State) (n : Nat) : (s.drew n).crcOk = s.crcOk := rfl
@[simp] theorem State.drew_shapeOk (s : State) (n : Nat) : (s.drew n).shapeOk = s.shapeOk := rfl
@[simp] theorem State.drew_lastErr (s : State) (n : Nat) : (s.drew n).lastErr = s.lastErr := rfl
@[simp] theorem State.drew_errCode (s : State) (n : Nat) : (s.drew n).errCode = s.errCode := rfl
@[simp] theorem State.drew_buf (s : State) (n : Nat) : (s.drew n).buf = s.buf := rfl
@[simp] theorem State.drew_draws (s : State) (n : Nat) : (s.drew n).draws = s.draws + n := rfl
@[simp] theorem State.drew_pending (s : State) (n : Nat) : (s.drew n).pending = s.pending := rfl
@[simp] theorem State.drew_responses (s : State) (n : Nat) : (s.drew n).responses = s.responses := rfl

/-! ## `State.respond` -/

@[simp] theorem State.respond_crc (s : State) (d : BusWord) (r : Resp) : (s.respond d r).crc = s.crc := rfl
@[simp] theorem State.respond_len (s : State) (d : BusWord) (r : Resp) : (s.respond d r).len = s.len := rfl
@[simp] theorem State.respond_off (s : State) (d : BusWord) (r : Resp) : (s.respond d r).off = s.off := rfl
@[simp] theorem State.respond_wlen (s : State) (d : BusWord) (r : Resp) : (s.respond d r).wlen = s.wlen := rfl
@[simp] theorem State.respond_expLen (s : State) (d : BusWord) (r : Resp) : (s.respond d r).expLen = s.expLen := rfl
@[simp] theorem State.respond_lenValid (s : State) (d : BusWord) (r : Resp) : (s.respond d r).lenValid = s.lenValid := rfl
@[simp] theorem State.respond_crcOk (s : State) (d : BusWord) (r : Resp) : (s.respond d r).crcOk = s.crcOk := rfl
@[simp] theorem State.respond_shapeOk (s : State) (d : BusWord) (r : Resp) : (s.respond d r).shapeOk = s.shapeOk := rfl
@[simp] theorem State.respond_lastErr (s : State) (d : BusWord) (r : Resp) : (s.respond d r).lastErr = s.lastErr := rfl
@[simp] theorem State.respond_errCode (s : State) (d : BusWord) (r : Resp) : (s.respond d r).errCode = s.errCode := rfl
@[simp] theorem State.respond_buf (s : State) (d : BusWord) (r : Resp) : (s.respond d r).buf = s.buf := rfl
@[simp] theorem State.respond_draws (s : State) (d : BusWord) (r : Resp) : (s.respond d r).draws = s.draws := rfl
@[simp] theorem State.respond_pending (s : State) (d : BusWord) (r : Resp) : (s.respond d r).pending = s.pending := rfl
@[simp] theorem State.respond_responses (s : State) (d : BusWord) (r : Resp) : (s.respond d r).responses = ⟨d, r⟩ :: s.responses := rfl

/-! ## `State.reject` -/

@[simp] theorem State.reject_crc (s : State) (c : ErrorCode) : (s.reject c).crc = s.crc := rfl
@[simp] theorem State.reject_len (s : State) (c : ErrorCode) : (s.reject c).len = s.len := rfl
@[simp] theorem State.reject_off (s : State) (c : ErrorCode) : (s.reject c).off = s.off := rfl
@[simp] theorem State.reject_wlen (s : State) (c : ErrorCode) : (s.reject c).wlen = s.wlen := rfl
@[simp] theorem State.reject_expLen (s : State) (c : ErrorCode) : (s.reject c).expLen = s.expLen := rfl
@[simp] theorem State.reject_lenValid (s : State) (c : ErrorCode) : (s.reject c).lenValid = s.lenValid := rfl
@[simp] theorem State.reject_crcOk (s : State) (c : ErrorCode) : (s.reject c).crcOk = s.crcOk := rfl
@[simp] theorem State.reject_shapeOk (s : State) (c : ErrorCode) : (s.reject c).shapeOk = s.shapeOk := rfl
@[simp] theorem State.reject_lastErr (s : State) (c : ErrorCode) : (s.reject c).lastErr = true := rfl
@[simp] theorem State.reject_errCode (s : State) (c : ErrorCode) : (s.reject c).errCode = if s.errCode = 0 then ErrorCode.value c else s.errCode := rfl
@[simp] theorem State.reject_buf (s : State) (c : ErrorCode) : (s.reject c).buf = s.buf := rfl
@[simp] theorem State.reject_draws (s : State) (c : ErrorCode) : (s.reject c).draws = s.draws := rfl
@[simp] theorem State.reject_pending (s : State) (c : ErrorCode) : (s.reject c).pending = s.pending := rfl
@[simp] theorem State.reject_responses (s : State) (c : ErrorCode) : (s.reject c).responses = s.responses := rfl

/-! ## `State.counted` -/

@[simp] theorem State.counted_crc (s : State) : (s.counted).crc = s.crc := rfl
@[simp] theorem State.counted_len (s : State) : (s.counted).len = s.len := rfl
@[simp] theorem State.counted_off (s : State) : (s.counted).off = s.off := rfl
@[simp] theorem State.counted_wlen (s : State) : (s.counted).wlen = s.wlen := rfl
@[simp] theorem State.counted_expLen (s : State) : (s.counted).expLen = s.expLen := rfl
@[simp] theorem State.counted_lenValid (s : State) : (s.counted).lenValid = s.lenValid := rfl
@[simp] theorem State.counted_crcOk (s : State) : (s.counted).crcOk = s.crcOk := rfl
@[simp] theorem State.counted_shapeOk (s : State) : (s.counted).shapeOk = s.shapeOk := rfl
@[simp] theorem State.counted_lastErr (s : State) : (s.counted).lastErr = false := rfl
@[simp] theorem State.counted_errCode (s : State) : (s.counted).errCode = s.errCode := rfl
@[simp] theorem State.counted_buf (s : State) : (s.counted).buf = s.buf := rfl
@[simp] theorem State.counted_draws (s : State) : (s.counted).draws = s.draws := rfl
@[simp] theorem State.counted_pending (s : State) : (s.counted).pending = s.pending := rfl
@[simp] theorem State.counted_responses (s : State) : (s.counted).responses = s.responses := rfl

/-! ## `State.setCrcOk` -/

@[simp] theorem State.setCrcOk_crc (s : State) (b : Bool) : (s.setCrcOk b).crc = s.crc := rfl
@[simp] theorem State.setCrcOk_len (s : State) (b : Bool) : (s.setCrcOk b).len = s.len := rfl
@[simp] theorem State.setCrcOk_off (s : State) (b : Bool) : (s.setCrcOk b).off = s.off := rfl
@[simp] theorem State.setCrcOk_wlen (s : State) (b : Bool) : (s.setCrcOk b).wlen = s.wlen := rfl
@[simp] theorem State.setCrcOk_expLen (s : State) (b : Bool) : (s.setCrcOk b).expLen = s.expLen := rfl
@[simp] theorem State.setCrcOk_lenValid (s : State) (b : Bool) : (s.setCrcOk b).lenValid = s.lenValid := rfl
@[simp] theorem State.setCrcOk_crcOk (s : State) (b : Bool) : (s.setCrcOk b).crcOk = b := rfl
@[simp] theorem State.setCrcOk_shapeOk (s : State) (b : Bool) : (s.setCrcOk b).shapeOk = s.shapeOk := rfl
@[simp] theorem State.setCrcOk_lastErr (s : State) (b : Bool) : (s.setCrcOk b).lastErr = s.lastErr := rfl
@[simp] theorem State.setCrcOk_errCode (s : State) (b : Bool) : (s.setCrcOk b).errCode = s.errCode := rfl
@[simp] theorem State.setCrcOk_buf (s : State) (b : Bool) : (s.setCrcOk b).buf = s.buf := rfl
@[simp] theorem State.setCrcOk_draws (s : State) (b : Bool) : (s.setCrcOk b).draws = s.draws := rfl
@[simp] theorem State.setCrcOk_pending (s : State) (b : Bool) : (s.setCrcOk b).pending = s.pending := rfl
@[simp] theorem State.setCrcOk_responses (s : State) (b : Bool) : (s.setCrcOk b).responses = s.responses := rfl

/-! ## `State.setShapeOk` -/

@[simp] theorem State.setShapeOk_crc (s : State) (b : Bool) : (s.setShapeOk b).crc = s.crc := rfl
@[simp] theorem State.setShapeOk_len (s : State) (b : Bool) : (s.setShapeOk b).len = s.len := rfl
@[simp] theorem State.setShapeOk_off (s : State) (b : Bool) : (s.setShapeOk b).off = s.off := rfl
@[simp] theorem State.setShapeOk_wlen (s : State) (b : Bool) : (s.setShapeOk b).wlen = s.wlen := rfl
@[simp] theorem State.setShapeOk_expLen (s : State) (b : Bool) : (s.setShapeOk b).expLen = s.expLen := rfl
@[simp] theorem State.setShapeOk_lenValid (s : State) (b : Bool) : (s.setShapeOk b).lenValid = s.lenValid := rfl
@[simp] theorem State.setShapeOk_crcOk (s : State) (b : Bool) : (s.setShapeOk b).crcOk = s.crcOk := rfl
@[simp] theorem State.setShapeOk_shapeOk (s : State) (b : Bool) : (s.setShapeOk b).shapeOk = b := rfl
@[simp] theorem State.setShapeOk_lastErr (s : State) (b : Bool) : (s.setShapeOk b).lastErr = s.lastErr := rfl
@[simp] theorem State.setShapeOk_errCode (s : State) (b : Bool) : (s.setShapeOk b).errCode = s.errCode := rfl
@[simp] theorem State.setShapeOk_buf (s : State) (b : Bool) : (s.setShapeOk b).buf = s.buf := rfl
@[simp] theorem State.setShapeOk_draws (s : State) (b : Bool) : (s.setShapeOk b).draws = s.draws := rfl
@[simp] theorem State.setShapeOk_pending (s : State) (b : Bool) : (s.setShapeOk b).pending = s.pending := rfl
@[simp] theorem State.setShapeOk_responses (s : State) (b : Bool) : (s.setShapeOk b).responses = s.responses := rfl

/-! ## `State.computeCrc` -/

@[simp] theorem State.computeCrc_crc (s : State) (n : Nat) : (s.computeCrc n).crc = crcCompute (s.view s.start) n := rfl
@[simp] theorem State.computeCrc_len (s : State) (n : Nat) : (s.computeCrc n).len = s.len := rfl
@[simp] theorem State.computeCrc_off (s : State) (n : Nat) : (s.computeCrc n).off = s.off := rfl
@[simp] theorem State.computeCrc_wlen (s : State) (n : Nat) : (s.computeCrc n).wlen = s.wlen := rfl
@[simp] theorem State.computeCrc_expLen (s : State) (n : Nat) : (s.computeCrc n).expLen = s.expLen := rfl
@[simp] theorem State.computeCrc_lenValid (s : State) (n : Nat) : (s.computeCrc n).lenValid = s.lenValid := rfl
@[simp] theorem State.computeCrc_crcOk (s : State) (n : Nat) : (s.computeCrc n).crcOk = s.crcOk := rfl
@[simp] theorem State.computeCrc_shapeOk (s : State) (n : Nat) : (s.computeCrc n).shapeOk = s.shapeOk := rfl
@[simp] theorem State.computeCrc_lastErr (s : State) (n : Nat) : (s.computeCrc n).lastErr = s.lastErr := rfl
@[simp] theorem State.computeCrc_errCode (s : State) (n : Nat) : (s.computeCrc n).errCode = s.errCode := rfl
@[simp] theorem State.computeCrc_buf (s : State) (n : Nat) : (s.computeCrc n).buf = s.buf := rfl
@[simp] theorem State.computeCrc_draws (s : State) (n : Nat) : (s.computeCrc n).draws = s.draws + n := rfl
@[simp] theorem State.computeCrc_pending (s : State) (n : Nat) : (s.computeCrc n).pending = s.pending := rfl
@[simp] theorem State.computeCrc_responses (s : State) (n : Nat) : (s.computeCrc n).responses = s.responses := rfl

/-! ## `State.checkShape` -/

@[simp] theorem State.checkShape_crc (s : State) : (s.checkShape).crc = s.crc := rfl
@[simp] theorem State.checkShape_len (s : State) : (s.checkShape).len = s.len := rfl
@[simp] theorem State.checkShape_off (s : State) : (s.checkShape).off = s.off := rfl
@[simp] theorem State.checkShape_wlen (s : State) : (s.checkShape).wlen = s.wlen := rfl
@[simp] theorem State.checkShape_expLen (s : State) : (s.checkShape).expLen = s.expLen := rfl
@[simp] theorem State.checkShape_lenValid (s : State) : (s.checkShape).lenValid = s.lenValid := rfl
@[simp] theorem State.checkShape_crcOk (s : State) : (s.checkShape).crcOk = s.crcOk := rfl
@[simp] theorem State.checkShape_shapeOk (s : State) : (s.checkShape).shapeOk = plausibleShape (s.view s.start) s.windowLen := rfl
@[simp] theorem State.checkShape_lastErr (s : State) : (s.checkShape).lastErr = s.lastErr := rfl
@[simp] theorem State.checkShape_errCode (s : State) : (s.checkShape).errCode = s.errCode := rfl
@[simp] theorem State.checkShape_buf (s : State) : (s.checkShape).buf = s.buf := rfl
@[simp] theorem State.checkShape_draws (s : State) : (s.checkShape).draws = s.draws + s.windowLen := rfl
@[simp] theorem State.checkShape_pending (s : State) : (s.checkShape).pending = s.pending := rfl
@[simp] theorem State.checkShape_responses (s : State) : (s.checkShape).responses = s.responses := rfl

/-! ## `State.warmReset` -/

@[simp] theorem State.warmReset_crc (s : State) : (s.warmReset).crc = 0xFFFF := rfl
@[simp] theorem State.warmReset_len (s : State) : (s.warmReset).len = 0 := rfl
@[simp] theorem State.warmReset_off (s : State) : (s.warmReset).off = 0 := rfl
@[simp] theorem State.warmReset_wlen (s : State) : (s.warmReset).wlen = 0 := rfl
@[simp] theorem State.warmReset_expLen (s : State) : (s.warmReset).expLen = 0 := rfl
@[simp] theorem State.warmReset_lenValid (s : State) : (s.warmReset).lenValid = false := rfl
@[simp] theorem State.warmReset_crcOk (s : State) : (s.warmReset).crcOk = false := rfl
@[simp] theorem State.warmReset_shapeOk (s : State) : (s.warmReset).shapeOk = false := rfl
@[simp] theorem State.warmReset_lastErr (s : State) : (s.warmReset).lastErr = false := rfl
@[simp] theorem State.warmReset_errCode (s : State) : (s.warmReset).errCode = 0 := rfl
@[simp] theorem State.warmReset_buf (s : State) : (s.warmReset).buf = s.buf := rfl
@[simp] theorem State.warmReset_draws (s : State) : (s.warmReset).draws = s.draws := rfl
@[simp] theorem State.warmReset_pending (s : State) : (s.warmReset).pending = s.pending := rfl
@[simp] theorem State.warmReset_responses (s : State) : (s.warmReset).responses = s.responses := rfl

/-! ## `State.issueNext` -/

@[simp] theorem State.issueNext_crc (s : State) (a : Access) : (s.issueNext a).crc = s.crc := rfl
@[simp] theorem State.issueNext_len (s : State) (a : Access) : (s.issueNext a).len = s.len := rfl
@[simp] theorem State.issueNext_off (s : State) (a : Access) : (s.issueNext a).off = s.off := rfl
@[simp] theorem State.issueNext_wlen (s : State) (a : Access) : (s.issueNext a).wlen = s.wlen := rfl
@[simp] theorem State.issueNext_expLen (s : State) (a : Access) : (s.issueNext a).expLen = s.expLen := rfl
@[simp] theorem State.issueNext_lenValid (s : State) (a : Access) : (s.issueNext a).lenValid = s.lenValid := rfl
@[simp] theorem State.issueNext_crcOk (s : State) (a : Access) : (s.issueNext a).crcOk = s.crcOk := rfl
@[simp] theorem State.issueNext_shapeOk (s : State) (a : Access) : (s.issueNext a).shapeOk = s.shapeOk := rfl
@[simp] theorem State.issueNext_lastErr (s : State) (a : Access) : (s.issueNext a).lastErr = s.lastErr := rfl
@[simp] theorem State.issueNext_errCode (s : State) (a : Access) : (s.issueNext a).errCode = s.errCode := rfl
@[simp] theorem State.issueNext_buf (s : State) (a : Access) : (s.issueNext a).buf = s.buf := rfl
@[simp] theorem State.issueNext_draws (s : State) (a : Access) : (s.issueNext a).draws = s.draws := rfl
@[simp] theorem State.issueNext_pending (s : State) (a : Access) : (s.issueNext a).pending = .access a :: s.pending := rfl
@[simp] theorem State.issueNext_responses (s : State) (a : Access) : (s.issueNext a).responses = s.responses := rfl

/-! ## `State.issue` -/

@[simp] theorem State.issue_crc (s : State) (as : List Access) : (s.issue as).crc = s.crc := rfl
@[simp] theorem State.issue_len (s : State) (as : List Access) : (s.issue as).len = s.len := rfl
@[simp] theorem State.issue_off (s : State) (as : List Access) : (s.issue as).off = s.off := rfl
@[simp] theorem State.issue_wlen (s : State) (as : List Access) : (s.issue as).wlen = s.wlen := rfl
@[simp] theorem State.issue_expLen (s : State) (as : List Access) : (s.issue as).expLen = s.expLen := rfl
@[simp] theorem State.issue_lenValid (s : State) (as : List Access) : (s.issue as).lenValid = s.lenValid := rfl
@[simp] theorem State.issue_crcOk (s : State) (as : List Access) : (s.issue as).crcOk = s.crcOk := rfl
@[simp] theorem State.issue_shapeOk (s : State) (as : List Access) : (s.issue as).shapeOk = s.shapeOk := rfl
@[simp] theorem State.issue_lastErr (s : State) (as : List Access) : (s.issue as).lastErr = s.lastErr := rfl
@[simp] theorem State.issue_errCode (s : State) (as : List Access) : (s.issue as).errCode = s.errCode := rfl
@[simp] theorem State.issue_buf (s : State) (as : List Access) : (s.issue as).buf = s.buf := rfl
@[simp] theorem State.issue_draws (s : State) (as : List Access) : (s.issue as).draws = s.draws := rfl
@[simp] theorem State.issue_pending (s : State) (as : List Access) : (s.issue as).pending = s.pending ++ as.map HostEvent.access := rfl
@[simp] theorem State.issue_responses (s : State) (as : List Access) : (s.issue as).responses = s.responses := rfl

/-! ## `State.setLength` -/

@[simp] theorem State.setLength_crc (s : State) (r : Option Nat) : (s.setLength r).crc = s.crc := by cases r <;> rfl
@[simp] theorem State.setLength_len (s : State) (r : Option Nat) : (s.setLength r).len = s.len := by cases r <;> rfl
@[simp] theorem State.setLength_off (s : State) (r : Option Nat) : (s.setLength r).off = s.off := by cases r <;> rfl
@[simp] theorem State.setLength_wlen (s : State) (r : Option Nat) : (s.setLength r).wlen = s.wlen := by cases r <;> rfl
@[simp] theorem State.setLength_expLen (s : State) (r : Option Nat) : (s.setLength r).expLen = BitVec.ofNat 16 (r.getD 0) := by cases r <;> rfl
@[simp] theorem State.setLength_lenValid (s : State) (r : Option Nat) : (s.setLength r).lenValid = r.isSome := by cases r <;> rfl
@[simp] theorem State.setLength_crcOk (s : State) (r : Option Nat) : (s.setLength r).crcOk = s.crcOk := by cases r <;> rfl
@[simp] theorem State.setLength_shapeOk (s : State) (r : Option Nat) : (s.setLength r).shapeOk = s.shapeOk := by cases r <;> rfl
@[simp] theorem State.setLength_lastErr (s : State) (r : Option Nat) : (s.setLength r).lastErr = s.lastErr := by cases r <;> rfl
@[simp] theorem State.setLength_errCode (s : State) (r : Option Nat) : (s.setLength r).errCode = s.errCode := by cases r <;> rfl
@[simp] theorem State.setLength_buf (s : State) (r : Option Nat) : (s.setLength r).buf = s.buf := by cases r <;> rfl
@[simp] theorem State.setLength_draws (s : State) (r : Option Nat) : (s.setLength r).draws = s.draws := by cases r <;> rfl
@[simp] theorem State.setLength_pending (s : State) (r : Option Nat) : (s.setLength r).pending = s.pending := by cases r <;> rfl
@[simp] theorem State.setLength_responses (s : State) (r : Option Nat) : (s.setLength r).responses = s.responses := by cases r <;> rfl

/-! ## `State.verifyWindow` -/

@[simp] theorem State.verifyWindow_len (s : State) : s.verifyWindow.len = s.len := by
  unfold State.verifyWindow; split <;> rfl
@[simp] theorem State.verifyWindow_off (s : State) : s.verifyWindow.off = s.off := by
  unfold State.verifyWindow; split <;> rfl
@[simp] theorem State.verifyWindow_wlen (s : State) : s.verifyWindow.wlen = s.wlen := by
  unfold State.verifyWindow; split <;> rfl
@[simp] theorem State.verifyWindow_expLen (s : State) : s.verifyWindow.expLen = s.expLen := by
  unfold State.verifyWindow; split <;> rfl
@[simp] theorem State.verifyWindow_lenValid (s : State) : s.verifyWindow.lenValid = s.lenValid := by
  unfold State.verifyWindow; split <;> rfl
@[simp] theorem State.verifyWindow_shapeOk (s : State) : s.verifyWindow.shapeOk = s.shapeOk := by
  unfold State.verifyWindow; split <;> rfl
@[simp] theorem State.verifyWindow_lastErr (s : State) : s.verifyWindow.lastErr = s.lastErr := by
  unfold State.verifyWindow; split <;> rfl
@[simp] theorem State.verifyWindow_errCode (s : State) : s.verifyWindow.errCode = s.errCode := by
  unfold State.verifyWindow; split <;> rfl
@[simp] theorem State.verifyWindow_buf (s : State) : s.verifyWindow.buf = s.buf := by
  unfold State.verifyWindow; split <;> rfl
@[simp] theorem State.verifyWindow_pending (s : State) : s.verifyWindow.pending = s.pending := by
  unfold State.verifyWindow; split <;> rfl
@[simp] theorem State.verifyWindow_responses (s : State) : s.verifyWindow.responses = s.responses := by
  unfold State.verifyWindow; split <;> rfl

/-! ## `State.tear` -/

@[simp] theorem State.tear_crc (s : State) (a : Nat) (bs : List Byte) : (s.tear a bs).crc = s.crc := by
  induction bs generalizing s a with
  | nil => rfl
  | cons b bs ih => simp [State.tear, ih]
@[simp] theorem State.tear_len (s : State) (a : Nat) (bs : List Byte) : (s.tear a bs).len = s.len := by
  induction bs generalizing s a with
  | nil => rfl
  | cons b bs ih => simp [State.tear, ih]
@[simp] theorem State.tear_off (s : State) (a : Nat) (bs : List Byte) : (s.tear a bs).off = s.off := by
  induction bs generalizing s a with
  | nil => rfl
  | cons b bs ih => simp [State.tear, ih]
@[simp] theorem State.tear_wlen (s : State) (a : Nat) (bs : List Byte) : (s.tear a bs).wlen = s.wlen := by
  induction bs generalizing s a with
  | nil => rfl
  | cons b bs ih => simp [State.tear, ih]
@[simp] theorem State.tear_expLen (s : State) (a : Nat) (bs : List Byte) : (s.tear a bs).expLen = s.expLen := by
  induction bs generalizing s a with
  | nil => rfl
  | cons b bs ih => simp [State.tear, ih]
@[simp] theorem State.tear_lenValid (s : State) (a : Nat) (bs : List Byte) : (s.tear a bs).lenValid = s.lenValid := by
  induction bs generalizing s a with
  | nil => rfl
  | cons b bs ih => simp [State.tear, ih]
@[simp] theorem State.tear_crcOk (s : State) (a : Nat) (bs : List Byte) : (s.tear a bs).crcOk = s.crcOk := by
  induction bs generalizing s a with
  | nil => rfl
  | cons b bs ih => simp [State.tear, ih]
@[simp] theorem State.tear_shapeOk (s : State) (a : Nat) (bs : List Byte) : (s.tear a bs).shapeOk = s.shapeOk := by
  induction bs generalizing s a with
  | nil => rfl
  | cons b bs ih => simp [State.tear, ih]
@[simp] theorem State.tear_lastErr (s : State) (a : Nat) (bs : List Byte) : (s.tear a bs).lastErr = s.lastErr := by
  induction bs generalizing s a with
  | nil => rfl
  | cons b bs ih => simp [State.tear, ih]
@[simp] theorem State.tear_errCode (s : State) (a : Nat) (bs : List Byte) : (s.tear a bs).errCode = s.errCode := by
  induction bs generalizing s a with
  | nil => rfl
  | cons b bs ih => simp [State.tear, ih]
@[simp] theorem State.tear_pending (s : State) (a : Nat) (bs : List Byte) : (s.tear a bs).pending = s.pending := by
  induction bs generalizing s a with
  | nil => rfl
  | cons b bs ih => simp [State.tear, ih]
@[simp] theorem State.tear_responses (s : State) (a : Nat) (bs : List Byte) : (s.tear a bs).responses = s.responses := by
  induction bs generalizing s a with
  | nil => rfl
  | cons b bs ih => simp [State.tear, ih]

/-! ## `start`, `windowLen`, `avail` and the views depend on OFF, WLEN, LEN, BUF and the draws only -/

@[simp] theorem State.start_eq (s : State) : s.start = s.off.toNat := rfl
@[simp] theorem State.windowLen_eq (s : State) : s.windowLen = s.wlen.toNat := rfl
@[simp] theorem State.avail_eq (s : State) : s.avail = s.len.toNat - s.off.toNat := rfl

end Sys2Proof.Machine
end

