-- ==== Sys2Proof/Laws/Ops.lean ====
section
/-! SUPPORT. One lemma per shared operation that says once everything it can do. -/

namespace Sys2Proof.Machine

/-! ## Ends of an access -/

theorem complete_eq (s : State) :
    complete s = .next { s with lastErr := false, responses := ⟨0, .ok⟩ :: s.responses } := rfl

theorem rejectWrite_eq (c : ErrorCode) (s : State) :
    rejectWrite c s = .next { s with
      lastErr := true
      errCode := if s.errCode = 0 then ErrorCode.value c else s.errCode
      responses := ⟨0, .ok⟩ :: s.responses } := rfl

theorem answer_eq (d : BusWord) (s : State) :
    answer d s = .next { s with responses := ⟨d, .ok⟩ :: s.responses } := rfl

/-- An error code's value is one of 1 to 6. -/
theorem ErrorCode.value_range (c : ErrorCode) :
    1 ≤ (ErrorCode.value c).toNat ∧ (ErrorCode.value c).toNat ≤ 6 := by cases c <;> decide

/-! ## Bytes that exist -/

theorem inBuf_eq_next {a n size : Nat} {k : Host.Outcome State Fault Refusal} {t : State} :
    inBuf a n k size = .next t ↔ a + n ≤ size ∧ k = .next t := by
  unfold inBuf
  split <;> simp_all

theorem inBuf_of_le {a n size : Nat} (k : Host.Outcome State Fault Refusal) (h : a + n ≤ size) :
    inBuf a n k size = k := if_pos h

theorem inBuf_of_gt {a n size : Nat} (k : Host.Outcome State Fault Refusal) (h : size < a + n) :
    inBuf a n k size = .fault .bufIndexOutOfRange := if_neg (by omega)

/-! ## Range-checked commands -/

/-- What a window command can answer: the rejection of R175, or the end of its effect. -/
theorem windowCommand_next {f : State → State} {s t : State} {size : Nat} (h : windowCommand f s size = .next t) :
    (s.len.toNat < s.off.toNat + s.wlen.toNat ∧ t = (s.reject .eRange).respond 0 .ok) ∨
    (s.off.toNat + s.wlen.toNat ≤ s.len.toNat ∧ s.off.toNat + s.wlen.toNat ≤ size ∧
      t = (f s).counted.respond 0 .ok) := by
  unfold windowCommand at h
  split at h
  · exact .inl ⟨by simpa using ‹_ > _›, by cases h; rfl⟩
  · rw [inBuf_eq_next] at h
    exact .inr ⟨Nat.not_lt.mp ‹¬ _ > _›, h.1, by cases h.2; rfl⟩

/-- A window command whose window lies below LEN runs its effect (R175). -/
theorem windowCommand_inRange {s : State} {size : Nat} (f : State → State) (h : s.off.toNat + s.wlen.toNat ≤ s.len.toNat)
    (hl : s.len.toNat ≤ size) : windowCommand f s size = complete (f s) := by
  unfold windowCommand
  rw [if_neg (by simpa using h), inBuf_of_le _ (by simp only [State.start_eq, State.windowLen_eq]; omega)]

/-- A window command whose window does not lie below LEN is rejected (R175). -/
theorem windowCommand_outOfRange {s : State} {size : Nat} (f : State → State)
    (h : s.len.toNat < s.off.toNat + s.wlen.toNat) : windowCommand f s size = rejectWrite .eRange s :=
  if_pos (by simpa using h)

/-- What a shape-length command can answer: the rejection of R175, or the end of its effect. -/
theorem viewCommand_next {f : State → State} {s t : State} {size : Nat} (h : viewCommand f s size = .next t) :
    (s.len.toNat < s.off.toNat ∧ t = (s.reject .eRange).respond 0 .ok) ∨
    (s.off.toNat ≤ s.len.toNat ∧ s.len.toNat ≤ size ∧ t = (f s).counted.respond 0 .ok) := by
  unfold viewCommand at h
  split at h
  · exact .inl ⟨by simpa using ‹_ > _›, by cases h; rfl⟩
  · rw [inBuf_eq_next] at h
    have h1 : s.off.toNat ≤ s.len.toNat := Nat.not_lt.mp ‹¬ _ > _›
    have h2 := h.1
    simp only [State.start_eq, State.avail_eq] at h2
    exact .inr ⟨h1, by omega, by cases h.2; rfl⟩

/-- A shape-length command whose view starts within LEN runs its effect (R175). -/
theorem viewCommand_inRange {s : State} {size : Nat} (f : State → State) (h : s.off.toNat ≤ s.len.toNat)
    (hl : s.len.toNat ≤ size) : viewCommand f s size = complete (f s) := by
  unfold viewCommand
  rw [if_neg (by simpa using h), inBuf_of_le _ (by simp only [State.start_eq, State.avail_eq]; omega)]

/-- A shape-length command whose view starts above LEN is rejected (R175). -/
theorem viewCommand_outOfRange {s : State} {size : Nat} (f : State → State) (h : s.len.toNat < s.off.toNat) :
    viewCommand f s size = rejectWrite .eRange s :=
  if_pos (by simpa using h)

/-! ## The CMD write -/

/-- The three ways of a CMD write (R75). -/
theorem execWrCmd_cases (w : BusWord) (s : State) (size : Nat := Config.bufSize) :
    (rsvdField w ≠ 0 ∧ execWrCmd w s size = rejectWrite .eRsvd s) ∨
    (rsvdField w = 0 ∧ opcodeAt (opField w) = none ∧ execWrCmd w s size = rejectWrite .eOpcode s) ∨
    (∃ op, rsvdField w = 0 ∧ opField w = op.code ∧ execWrCmd w s size = execOpcode (dataField w) s op size) := by
  unfold execWrCmd
  split
  · exact .inl ⟨‹_›, rfl⟩
  · have h0 : rsvdField w = 0 := not_not.mp ‹_›
    split
    · exact .inr (.inl ⟨h0, ‹_›, rfl⟩)
    · exact .inr (.inr ⟨_, h0, opcodeAt_eq_some.mp ‹_›, rfl⟩)

/-! ## Reset during an access -/

/-- After a torn write each byte holds its old or its new value, and no other byte changes (R191). -/
theorem State.read?_tear (s : State) (a x : Nat) (bs : List Byte) :
    Memory.read? (s.tear a bs).buf x = Memory.read? s.buf x ∨
      ∃ k, x = a + k ∧ ∃ b, bs[k]? = some b ∧ Memory.read? (s.tear a bs).buf x = some b := by
  induction bs generalizing s a with
  | nil => exact .inl rfl
  | cons b bs ih =>
    rw [State.tear]
    rcases ih _ (a + 1) with h | ⟨k, hx, c, hc, h⟩
    · rw [h]
      dsimp only
      split
      · rw [Memory.read?_write]
        split
        · exact .inr ⟨0, ‹_›, b, rfl, rfl⟩
        · exact .inl rfl
      · exact .inl rfl
    · exact .inr ⟨k + 1, by omega, c, hc, h⟩

/-- A torn write inside BUF keeps the canonical form. -/
theorem Memory.wf_tear {s : State} {a size : Nat} {bs : List Byte} (h : Memory.wf s.buf size = true)
    (ha : a + bs.length ≤ size) : Memory.wf (s.tear a bs).buf size = true := by
  induction bs generalizing s a with
  | nil => exact h
  | cons b bs ih =>
    simp only [List.length_cons] at ha
    rw [State.tear]
    refine ih ?_ (by omega)
    dsimp only
    split
    · exact Memory.wf_write b h (by omega)
    · exact h

end Sys2Proof.Machine
end

