-- ==== Sys2Proof/Laws/Sized.lean ====
section
/-! SUPPORT. The block of any buffer size (spec/00_scope.md R5) and this hardware's: the second is the first at
`Config.bufSize`, so a lemma about every size is one about `exec`. -/

namespace Sys2Proof.Machine

/-- An instruction of this hardware is that of the block of `Config.bufSize` bytes. -/
@[simp] theorem execSized_bufSize (i : Instr) (s : State) : execSized Config.bufSize i s = exec i s := by
  cases i <;> rfl

/-- A step of this hardware is that of the block of `Config.bufSize` bytes. -/
@[simp] theorem stepSized_bufSize : stepSized Config.bufSize = step := by
  have h : execSized Config.bufSize = exec := funext fun i => funext fun s => execSized_bufSize i s
  funext s
  rw [stepSized, h]
  rfl

/-- A CMD write of a defined command word runs its instruction (R73, R75). -/
theorem execSized_wrCmd_of_code {w : BusWord} {op : Opcode} (size : Nat) (s : State) (h0 : rsvdField w = 0)
    (h : opField w = op.code) : execSized size (.wrCmd w) s = execSized size (op.instr (dataField w)) s := by
  have : execWrCmd w s size = execOpcode (dataField w) s op size := by simp [execWrCmd, h0, h]
  exact this.trans (by cases op <;> rfl)

/-- A CMD write of a defined command word runs its instruction, in this hardware. -/
theorem exec_wrCmd_of_code {w : BusWord} {op : Opcode} (s : State) (h0 : rsvdField w = 0)
    (h : opField w = op.code) : exec (.wrCmd w) s = exec (op.instr (dataField w)) s := by
  simpa using execSized_wrCmd_of_code Config.bufSize s h0 h

/-- CFG reads the size the block was built with (R41). -/
theorem execSized_rdCfg {size : Nat} (h : Config.legalSize size) (s : State) :
    execSized size .rdCfg s = answer (BitVec.ofNat 32 size) s ∧ (BitVec.ofNat 32 size).toNat = size := by
  refine ⟨rfl, ?_⟩
  have := h.2.2
  rw [BitVec.toNat_ofNat]
  omega

end Sys2Proof.Machine
end

