-- ==== Sys2Proof/Laws/Commands.lean ====
section
/-! SUPPORT. What a command can do, said once for the eleven of them: its effect, and the two ways it ends. -/

namespace Sys2Proof.Machine

open Sys2Proof.Safety

/-- The effect of each command before STATUS and the answer (R73). -/
def commandEffect (d : Byte) (s : State) : Opcode → State
  | .nop => s
  | .crcInit => { s with crc := Config.crcSeed }
  | .crcByte => { s with crc := crcStep s.crc d }
  | .crcBuf => s.computeCrc s.windowLen
  | .crcVerify => s.verifyWindow
  | .shapeLen => (s.setLength (expectedLen d (s.view s.start) s.avail)).drew s.avail
  | .shapeLenAt => (s.setLength (expectedLenAt (s.view s.start) s.avail)).drew s.avail
  | .shapeCheck => s.checkShape
  | .frameCheck => s.checkShape.verifyWindow
  | .bufClear => { s with len := 0 }
  | .errClear => { s with errCode := 0 }

theorem rejected_eq (s : State) (c : ErrorCode) :
    (s.reject c).respond 0 .ok = rejected s (ErrorCode.value c) := rfl

/-- A command whose range check passes runs its effect, in a state with LEN <= `P_BUF_SIZE`. -/
theorem execSized_command_inRange {op : Opcode} {s : State} {size : Nat} (d : Byte) (h : inRange s op)
    (hl : lenInBuf s size) : execSized size (op.instr d) s = complete (commandEffect d s op) := by
  have hw : op ∈ windowOps → s.off.toNat + s.wlen.toNat ≤ s.len.toNat := h.1
  have hv : op ∈ viewOps → s.off.toNat ≤ s.len.toNat := h.2
  cases op
  case nop => rfl
  case crcInit => rfl
  case crcByte => rfl
  case bufClear => rfl
  case errClear => rfl
  case crcBuf => exact windowCommand_inRange (fun s => s.computeCrc s.windowLen) (hw (by decide)) hl
  case crcVerify => exact windowCommand_inRange State.verifyWindow (hw (by decide)) hl
  case shapeCheck => exact windowCommand_inRange State.checkShape (hw (by decide)) hl
  case frameCheck => exact windowCommand_inRange (fun s => s.checkShape.verifyWindow) (hw (by decide)) hl
  case shapeLen =>
    exact viewCommand_inRange (fun s => (s.setLength (expectedLen d (s.view s.start) s.avail)).drew s.avail)
      (hv (by decide)) hl
  case shapeLenAt =>
    exact viewCommand_inRange (fun s => (s.setLength (expectedLenAt (s.view s.start) s.avail)).drew s.avail)
      (hv (by decide)) hl

/-- A command whose range check fails is rejected with E_RANGE. -/
theorem execSized_command_outOfRange {op : Opcode} {s : State} (size : Nat) (d : Byte) (h : ¬inRange s op) :
    execSized size (op.instr d) s = .next (rejected s 3) := by
  have hw : op ∈ windowOps → op ∉ viewOps → s.len.toNat < s.off.toNat + s.wlen.toNat := fun _ hv => by
    by_contra hc
    exact h ⟨fun _ => by omega, fun hv' => absurd hv' hv⟩
  have hv : op ∈ viewOps → op ∉ windowOps → s.len.toNat < s.off.toNat := fun _ hw => by
    by_contra hc
    exact h ⟨fun hw' => absurd hw' hw, fun _ => by omega⟩
  have hn : op ∉ windowOps → op ∉ viewOps → False := fun hw hv =>
    h ⟨fun hw' => absurd hw' hw, fun hv' => absurd hv' hv⟩
  cases op
  case nop => exact (hn (by decide) (by decide)).elim
  case crcInit => exact (hn (by decide) (by decide)).elim
  case crcByte => exact (hn (by decide) (by decide)).elim
  case bufClear => exact (hn (by decide) (by decide)).elim
  case errClear => exact (hn (by decide) (by decide)).elim
  case crcBuf =>
    exact windowCommand_outOfRange (fun s => s.computeCrc s.windowLen) (hw (by decide) (by decide))
  case crcVerify => exact windowCommand_outOfRange State.verifyWindow (hw (by decide) (by decide))
  case shapeCheck => exact windowCommand_outOfRange State.checkShape (hw (by decide) (by decide))
  case frameCheck =>
    exact windowCommand_outOfRange (fun s => s.checkShape.verifyWindow) (hw (by decide) (by decide))
  case shapeLen =>
    exact viewCommand_outOfRange (fun s => (s.setLength (expectedLen d (s.view s.start) s.avail)).drew s.avail)
      (hv (by decide) (by decide))
  case shapeLenAt =>
    exact viewCommand_outOfRange (fun s => (s.setLength (expectedLenAt (s.view s.start) s.avail)).drew s.avail)
      (hv (by decide) (by decide))

/-- If a command answers a next state, it was rejected with E_RANGE, or it ran its effect. -/
theorem execSized_command_next {op : Opcode} {d : Byte} {s t : State} {size : Nat}
    (h : execSized size (op.instr d) s = .next t) :
    (¬inRange s op ∧ t = rejected s 3) ∨
    (inRange s op ∧ t = (commandEffect d s op).counted.respond 0 .ok) := by
  by_cases hr : inRange s op
  · refine .inr ⟨hr, ?_⟩
    have hw : op ∈ windowOps → ¬s.len.toNat < s.off.toNat + s.wlen.toNat := fun hm => Nat.not_lt.mpr (hr.1 hm)
    have hv : op ∈ viewOps → ¬s.len.toNat < s.off.toNat := fun hm => Nat.not_lt.mpr (hr.2 hm)
    cases op
    case nop => cases h; rfl
    case crcInit => cases h; rfl
    case crcByte => cases h; rfl
    case bufClear => cases h; rfl
    case errClear => cases h; rfl
    case crcBuf =>
      exact (windowCommand_next (f := fun s => s.computeCrc s.windowLen) h).elim
        (fun hc => absurd hc.1 (hw (by decide))) fun hc => hc.2.2
    case crcVerify =>
      exact (windowCommand_next (f := State.verifyWindow) h).elim
        (fun hc => absurd hc.1 (hw (by decide))) fun hc => hc.2.2
    case shapeCheck =>
      exact (windowCommand_next (f := State.checkShape) h).elim
        (fun hc => absurd hc.1 (hw (by decide))) fun hc => hc.2.2
    case frameCheck =>
      exact (windowCommand_next (f := fun s => s.checkShape.verifyWindow) h).elim
        (fun hc => absurd hc.1 (hw (by decide))) fun hc => hc.2.2
    case shapeLen =>
      exact (viewCommand_next
        (f := fun s => (s.setLength (expectedLen d (s.view s.start) s.avail)).drew s.avail) h).elim
        (fun hc => absurd hc.1 (hv (by decide))) fun hc => hc.2.2
    case shapeLenAt =>
      exact (viewCommand_next
        (f := fun s => (s.setLength (expectedLenAt (s.view s.start) s.avail)).drew s.avail) h).elim
        (fun hc => absurd hc.1 (hv (by decide))) fun hc => hc.2.2
  · rw [execSized_command_outOfRange size d hr] at h
    exact .inl ⟨hr, by cases h; rfl⟩

/-- If a CMD write answers a next state, its word was rejected with E_RSVD or E_OPCODE, or its command answered. -/
theorem execSized_wrCmd_next {w : BusWord} {s t : State} {size : Nat} (h : execSized size (.wrCmd w) s = .next t) :
    (rsvdField w ≠ 0 ∧ t = rejected s 1) ∨
    (rsvdField w = 0 ∧ opcodeAt (opField w) = none ∧ t = rejected s 2) ∨
    ∃ op : Opcode, rsvdField w = 0 ∧ opField w = op.code ∧ execSized size (op.instr (dataField w)) s = .next t := by
  have hx : execSized size (.wrCmd w) s = execWrCmd w s size := rfl
  rcases execWrCmd_cases w s size with ⟨h0, e⟩ | ⟨h0, h1, e⟩ | ⟨op, h0, h1, _⟩
  · rw [hx, e] at h; exact .inl ⟨h0, by cases h; rfl⟩
  · rw [hx, e] at h; exact .inr (.inl ⟨h0, h1, by cases h; rfl⟩)
  · exact .inr (.inr ⟨op, h0, h1, by rw [execSized_wrCmd_of_code size s h0 h1] at h; exact h⟩)

/-! ## The same of this hardware -/

theorem exec_command_inRange {op : Opcode} {s : State} (d : Byte) (h : inRange s op) (hl : lenInBuf s) :
    exec (op.instr d) s = complete (commandEffect d s op) := by
  simpa using execSized_command_inRange d h hl

theorem exec_command_outOfRange {op : Opcode} {s : State} (d : Byte) (h : ¬inRange s op) :
    exec (op.instr d) s = .next (rejected s 3) := by
  simpa using execSized_command_outOfRange Config.bufSize d h

theorem exec_command_next {op : Opcode} {d : Byte} {s t : State} (h : exec (op.instr d) s = .next t) :
    (¬inRange s op ∧ t = rejected s 3) ∨
    (inRange s op ∧ t = (commandEffect d s op).counted.respond 0 .ok) :=
  execSized_command_next ((execSized_bufSize _ _).trans h)

theorem exec_wrCmd_next {w : BusWord} {s t : State} (h : exec (.wrCmd w) s = .next t) :
    (rsvdField w ≠ 0 ∧ t = rejected s 1) ∨
    (rsvdField w = 0 ∧ opcodeAt (opField w) = none ∧ t = rejected s 2) ∨
    ∃ op : Opcode, rsvdField w = 0 ∧ opField w = op.code ∧ exec (op.instr (dataField w)) s = .next t := by
  simpa using execSized_wrCmd_next ((execSized_bufSize _ _).trans h)

/-- The CMD encoding of each opcode issues its instruction (R71, R75). -/
theorem issues_code (op : Opcode) : issues op.code (fun d => op.instr d) := by
  intro w s h
  refine ⟨fun h0 => exec_wrCmd_of_code s h0 h, fun h0 => ?_⟩
  rcases execWrCmd_cases w s with ⟨_, e⟩ | ⟨h1, _⟩ | ⟨_, h1, _⟩
  · exact e
  · exact absurd h1 h0
  · exact absurd h1 h0

/-- What a reading operation sees is a reading of BUF. -/
theorem reading_view (s : State) (a n : Nat) : reading s a n (s.view a) := fun _ _ _ h => State.view_of_read h

/-- Two readings of bytes that have been written agree. -/
theorem reading_eq {s : State} {a n : Nat} {W V : Nat → Byte}
    (h : ∀ k < n, Memory.read? s.buf (a + k) = some (W k)) (hV : reading s a n V) : ∀ k < n, V k = W k :=
  fun k hk => hV k hk _ (h k hk)

/-! ## The fields a command's effect leaves alone -/

@[simp] theorem commandEffect_buf (d : Byte) (s : State) (op : Opcode) : (commandEffect d s op).buf = s.buf := by
  cases op <;> simp [commandEffect]

@[simp] theorem commandEffect_off (d : Byte) (s : State) (op : Opcode) : (commandEffect d s op).off = s.off := by
  cases op <;> simp [commandEffect]

@[simp] theorem commandEffect_wlen (d : Byte) (s : State) (op : Opcode) : (commandEffect d s op).wlen = s.wlen := by
  cases op <;> simp [commandEffect]

@[simp] theorem commandEffect_pending (d : Byte) (s : State) (op : Opcode) :
    (commandEffect d s op).pending = s.pending := by
  cases op <;> simp [commandEffect]

@[simp] theorem commandEffect_responses (d : Byte) (s : State) (op : Opcode) :
    (commandEffect d s op).responses = s.responses := by
  cases op <;> simp [commandEffect]

theorem commandEffect_errCode (d : Byte) (s : State) (op : Opcode) :
    (commandEffect d s op).errCode = if op = .errClear then 0 else s.errCode := by
  cases op <;> simp [commandEffect]

theorem commandEffect_len (d : Byte) (s : State) (op : Opcode) :
    (commandEffect d s op).len = if op = .bufClear then 0 else s.len := by
  cases op <;> simp [commandEffect]

/-! ## The effects as record updates -/

theorem State.setLength_eq (s : State) (r : Option Nat) : s.setLength r = { s with expLen := BitVec.ofNat 16 (r.getD 0), lenValid := r.isSome } := by
  cases r <;> rfl

theorem State.verifyWindow_of_lt {s : State} (h : s.wlen.toNat < 2) : s.verifyWindow = {s with crcOk := false} := by
  unfold State.verifyWindow
  rw [if_pos (by simpa using h)]
  rfl

theorem State.verifyWindow_of_ge {s : State} (h : 2 ≤ s.wlen.toNat) : s.verifyWindow =
  {s with crc := crcCompute (s.view s.off.toNat) (s.wlen.toNat - 2),
          crcOk := crcVerify (State.view { s with draws := s.draws + (s.wlen.toNat - 2) } s.off.toNat) s.wlen.toNat
          draws := s.draws + (s.wlen.toNat - 2) + s.wlen.toNat} := by
  unfold State.verifyWindow
  rw [if_neg (by simp; omega)]
  rfl

/-- A view depends on the bytes it covers only. -/
theorem State.view_congr {s : State} {m : Memory} {a n : Nat} (h : ∀ k < n, Memory.read? m (a + k) = Memory.read? s.buf (a+k)) :
   ∀ k < n, State.view { s with buf := m } a k = s.view a k := by
  intro k hk
  simp [State.view, h k hk]

end Sys2Proof.Machine
end

