-- ==== Sys2Proof/Laws/Crc.lean ====
section
/-! SUPPORT. The CRC primitives (spec/40_crc.md R100 to R102): one step is linear and loses nothing, and a
computation depends on the bytes it reads only. -/

namespace Sys2Proof.Machine

@[simp] theorem crcBits_zero (c : Half) : crcBits 0 c = c := rfl

theorem crcBits_succ (n : Nat) (c : Half) : crcBits (n + 1) c = crcBits n (crcBit c) := rfl

@[simp] theorem crcCompute_zero (W : Nat → Byte) : crcCompute W 0 = 0xFFFF := rfl

theorem crcCompute_succ (W : Nat → Byte) (n : Nat) : crcCompute W (n + 1) = crcStep (crcCompute W n) (W n) := rfl

/-- The computation over `n` bytes depends on those bytes only. -/
theorem crcCompute_congr {W W' : Nat → Byte} {n : Nat} (h : ∀ k < n, W k = W' k) :
    crcCompute W n = crcCompute W' n := by
  induction n with
  | zero => rfl
  | succ n ih => rw [crcCompute_succ, crcCompute_succ, ih fun k hk => h k (by omega), h n (by omega)]

/-- Verification of an `n`-byte frame depends on those bytes only. -/
theorem crcVerify_congr {W W' : Nat → Byte} {n : Nat} (h : ∀ k < n, W k = W' k) :
    crcVerify W n = crcVerify W' n := by
  unfold crcVerify
  split
  · rfl
  · have hc : crcCompute W (n - 2) = crcCompute W' (n - 2) := crcCompute_congr fun k hk => h k (by omega)
    simp only [hc, h (n - 2) (by omega), h (n - 1) (by omega)]

/-- An iteration as one formula: the bit shifted out selects the polynomial. -/
theorem crcBit_eq (c : Half) :
    crcBit c = (c >>> 1) ^^^ (if c.getLsbD 0 then Config.crcPoly else 0) := by
  unfold crcBit
  split <;> simp

/-- An iteration distributes over XOR. -/
theorem crcBit_xor (a b : Half) : crcBit (a ^^^ b) = crcBit a ^^^ crcBit b := by
  have hp : (if (a ^^^ b).getLsbD 0 then Config.crcPoly else 0) =
      (if a.getLsbD 0 then Config.crcPoly else 0) ^^^ (if b.getLsbD 0 then Config.crcPoly else 0) := by
    rw [BitVec.getLsbD_xor]
    cases a.getLsbD 0 <;> cases b.getLsbD 0 <;> simp
  rw [crcBit_eq, crcBit_eq, crcBit_eq, hp, BitVec.ushiftRight_xor_distrib]
  ac_rfl

theorem crcBits_xor (n : Nat) (a b : Half) : crcBits n (a ^^^ b) = crcBits n a ^^^ crcBits n b := by
  induction n generalizing a b with
  | zero => rfl
  | succ n ih => rw [crcBits_succ, crcBit_xor, ih]; rfl

/-- Bit 15 of an iteration's result is the bit it shifted out. -/
theorem crcBit_msb (c : Half) : (crcBit c).getLsbD 15 = c.getLsbD 0 := by
  rw [crcBit_eq, BitVec.getLsbD_xor]
  have hs : (c >>> 1).getLsbD 15 = false := by simp
  rw [hs]
  cases c.getLsbD 0 <;> rfl

/-- Only 0 iterates to 0. -/
theorem crcBit_eq_zero {c : Half} (h : crcBit c = 0) : c = 0 := by
  have h0 : c.getLsbD 0 = false := by rw [← crcBit_msb, h]; rfl
  have hs : c >>> 1 = 0 := by rw [crcBit_eq, h0] at h; simpa using h
  ext i hi
  cases i with
  | zero => simpa [BitVec.getLsbD_eq_getElem] using h0
  | succ i =>
    have hb := congrArg (fun x : Half => x.getLsbD i) hs
    simpa [BitVec.getLsbD_ushiftRight, BitVec.getLsbD_eq_getElem, hi, Nat.add_comm] using hb

theorem crcBits_eq_zero {n : Nat} {c : Half} (h : crcBits n c = 0) : c = 0 := by
  induction n generalizing c with
  | zero => exact h
  | succ n ih => exact crcBit_eq_zero (ih h)

/-- A step distributes over XOR, the byte with the value. -/
theorem crcStep_xor (a b : Half) (x y : Byte) : crcStep (a ^^^ b) (x ^^^ y) = crcStep a x ^^^ crcStep b y := by
  have hz : (x ^^^ y).setWidth 16 = x.setWidth 16 ^^^ y.setWidth 16 := BitVec.setWidth_xor
  unfold crcStep
  rw [hz, ← crcBits_xor]
  congr 1
  ac_rfl

/-- A step gives 0 only where the byte cancels the value. -/
theorem crcStep_eq_zero {c : Half} {b : Byte} (h : crcStep c b = 0) : c = b.setWidth 16 :=
  BitVec.xor_eq_zero_iff.mp (crcBits_eq_zero h)

/-- Eight iterations move the high byte into the low one. -/
theorem crcBits_hi (b : Byte) : crcBits 8 (b.setWidth 16 <<< 8) = b.setWidth 16 := by
  revert b; decide

/-- A step with the value's own low byte leaves its high byte. -/
theorem crcStep_lo (c : Half) : crcStep c (c.extractLsb' 0 8) = (c.extractLsb' 8 8).setWidth 16 := by
  have h : c ^^^ (c.extractLsb' 0 8).setWidth 16 = (c.extractLsb' 8 8).setWidth 16 <<< 8 := by
    ext i hi
    simp only [BitVec.getElem_xor, BitVec.getElem_setWidth, BitVec.getElem_shiftLeft, BitVec.getLsbD_extractLsb']
    by_cases h8 : i < 8
    · simp [h8, BitVec.getLsbD_eq_getElem, hi]
    · simp [h8, BitVec.getLsbD_eq_getElem, hi, show i - 8 < 8 by omega, show 8 + (i - 8) = i by omega]
  rw [crcStep, h, crcBits_hi]

end Sys2Proof.Machine
end

