-- ==== Sys2Proof/Laws/Exec.lean ====
section
/-! SUPPORT. What an instruction can do, said once for all of them: the ways `exec` answers a next state. -/

namespace Sys2Proof.Machine

open Sys2Proof.Safety

/-- The ways an instruction answers a next state: rejected; misaligned; a command's effect; a register write; a PUSH; a
BUF window write; or an answer that changes nothing. -/
inductive Ends (size : Nat) (i : Instr) (s t : State) : Prop
  | rejected (c : BitVec 4) (hc : 1 ≤ c.toNat ∧ c.toNat ≤ 6) (hcnt : counted i = true) (ne : ∀ d o w, i ≠ .misaligned d o w) (hne : ¬ ∃ op, runs i op ∧ inRange s op) (h : t = rejected s c)
  | mis (d o w) (hi : i = .misaligned d o w) (h : t = { s with lastErr := true, errCode := if s.errCode = 0 then 6 else s.errCode, responses := ⟨0, .err⟩ :: s.responses })
  | cmd (op d) (hr : inRange s op) (hi : runs i op) (hcnt : counted i = true) (ne : ∀ d o w, i ≠ .misaligned d o w) (h : t = (commandEffect d s op).counted.respond 0 .ok)
  | len (w v) (hi : i = .wrLen w) (hv : v.toNat ≤ size) (h : t = { s with len := v, lastErr := false, responses := ⟨0,.ok⟩ :: s.responses })
  | off (w v) (hi : i = .wrOff w) (h : t = { s with off := v, lastErr := false, responses := ⟨0,.ok⟩ :: s.responses })
  | wlen (w v) (hi : i = .wrWlen w) (h : t = { s with wlen := v, lastErr := false, responses := ⟨0,.ok⟩ :: s.responses })
  | push (w) (hi : i = .wrPush w) (hl : s.len.toNat < size) (h : t = { s with buf := Memory.write s.buf s.len.toNat (lowByte w), len := s.len + 1, lastErr := false, responses := ⟨0,.ok⟩ :: s.responses })
  | buf (k w) (hi : i = .wrBuf k w) (hk : 4*k+4 ≤ size) (h : t = { s with buf := Memory.writeBytes s.buf (4*k) (windowBytes w), lastErr := false, responses := ⟨0,.ok⟩ :: s.responses })
  | ans (v n) (hcnt : counted i = false) (ne : ∀ d o w, i ≠ .misaligned d o w) (hne : ∀ op, ¬ runs i op) (h : t = { s with draws := n, responses := ⟨v,.ok⟩ :: s.responses })

theorem runs_instr (op : Opcode) (d : Byte) : runs (op.instr d) op := .inl ⟨d, rfl⟩

theorem Opcode.instr_inj {op op' : Opcode} {d d' : Byte} (h : op.instr d = op'.instr d') : op = op' ∧ d = d' := by
  cases op <;> cases op' <;> simp_all [Opcode.instr]

theorem Opcode.code_inj {op op' : Opcode} (h : op.code = op'.code) : op = op' := by
  have := opcodeAt_code op; rw [h, opcodeAt_code] at this; exact (Option.some.inj this).symm

theorem not_runs {i : Instr} (h1 : ∀ op : Opcode, ∀ d, i ≠ op.instr d) (h2 : ∀ w, i ≠ .wrCmd w) (op) : ¬ runs i op := by
  rintro (⟨d, h⟩ | ⟨w, h, _⟩)
  · exact h1 op d h
  · exact h2 w h

theorem counted_instr (op : Opcode) (d : Byte) : counted (op.instr d) = true := by cases op <;> rfl

theorem instr_ne_misaligned (op : Opcode) (d : Byte) : ∀ d' o w, op.instr d ≠ .misaligned d' o w := by cases op <;> simp [Opcode.instr]

theorem runs_instr_iff {op op' : Opcode} {d} : runs (op.instr d) op' ↔ op' = op := by
  constructor
  · rintro (⟨d', h⟩ | ⟨w, h, _⟩)
    · exact (Opcode.instr_inj h).1.symm
    · cases op <;> simp [Opcode.instr] at h
  · rintro rfl; exact runs_instr _ _

theorem runs_cmd {w : BusWord} {op op' : Opcode} (h1 : opField w = op.code) (h : runs (.wrCmd w) op') : op' = op := by
  rcases h with ⟨d, h⟩ | ⟨w', h, _, h2⟩
  · cases op' <;> simp [Opcode.instr] at h
  · cases h; exact Opcode.code_inj (h2.symm.trans h1)

theorem Ends.of_command {op : Opcode} {d : Byte} {s t : State} {size : Nat}
    (h : execSized size (op.instr d) s = .next t) : Ends size (op.instr d) s t := by
  rcases execSized_command_next h with ⟨h1, rfl⟩ | ⟨h1, rfl⟩
  · exact .rejected 3 (by decide) (counted_instr _ _) (instr_ne_misaligned _ _) (by rintro ⟨op', h2, h3⟩; rw [runs_instr_iff] at h2; subst h2; exact h1 h3) rfl
  · exact .cmd op d h1 (runs_instr _ _) (counted_instr _ _) (instr_ne_misaligned _ _) rfl

/-- Every next state of an instruction is one of `Ends`. -/
theorem execSized_ends {i : Instr} {s t : State} {size : Nat} (h : execSized size i s = .next t) :
    Ends size i s t := by
  cases i with
  | nop d => exact Ends.of_command (op := .nop) h
  | crcInit d => exact Ends.of_command (op := .crcInit) h
  | crcByte d => exact Ends.of_command (op := .crcByte) h
  | crcBuf d => exact Ends.of_command (op := .crcBuf) h
  | crcVerify d => exact Ends.of_command (op := .crcVerify) h
  | shapeLen d => exact Ends.of_command (op := .shapeLen) h
  | shapeLenAt d => exact Ends.of_command (op := .shapeLenAt) h
  | shapeCheck d => exact Ends.of_command (op := .shapeCheck) h
  | frameCheck d => exact Ends.of_command (op := .frameCheck) h
  | bufClear d => exact Ends.of_command (op := .bufClear) h
  | errClear d => exact Ends.of_command (op := .errClear) h
  | wrCmd w =>
    rcases execSized_wrCmd_next h with ⟨h1, rfl⟩ | ⟨h1, h2, rfl⟩ | ⟨op, h1, h2, h3⟩
    · refine .rejected 1 (by decide) rfl (by simp) ?_ rfl
      rintro ⟨op, (⟨d, h⟩ | ⟨w', h, h0, _⟩), _⟩
      · cases op <;> simp [Opcode.instr] at h
      · cases h; exact h1 h0
    · refine .rejected 2 (by decide) rfl (by simp) ?_ rfl
      rintro ⟨op, (⟨d, h⟩ | ⟨w', h, h0, h3⟩), _⟩
      · cases op <;> simp [Opcode.instr] at h
      · cases h; rw [show opField w = op.code from h3, opcodeAt_code] at h2; cases h2
    · rcases execSized_command_next h3 with ⟨h4, rfl⟩ | ⟨h4, rfl⟩
      · exact .rejected 3 (by decide) rfl (by simp) (by rintro ⟨op', h5, h6⟩; rw [runs_cmd h2 h5] at h6; exact h4 h6) rfl
      · exact .cmd op (dataField w) h4 (.inr ⟨w, rfl, h1, h2⟩) rfl (by simp) rfl
  | wrLen w =>
    change execWrLen w s size = _ at h
    unfold execWrLen at h
    split at h
    · cases h
      exact .rejected 4 (by decide) rfl (by simp) (by rintro ⟨op, h, _⟩; exact not_runs (by intro op d; cases op <;> simp [Opcode.instr]) (by simp) op h) rfl
    · cases h; exact .len w (lowHalf w) rfl (by omega) rfl
  | wrOff w => cases h; exact .off w _ rfl rfl
  | wrWlen w => cases h; exact .wlen w _ rfl rfl
  | wrPush w =>
    change execWrPush w s size = _ at h
    unfold execWrPush at h
    split at h
    · cases h
      exact .rejected 5 (by decide) rfl (by simp) (by rintro ⟨op, h, _⟩; exact not_runs (by intro op d; cases op <;> simp [Opcode.instr]) (by simp) op h) rfl
    · rw [inBuf_eq_next] at h
      obtain ⟨h1, h2⟩ := h
      cases h2
      exact .push w rfl (by omega) rfl
  | wrBuf k w =>
    change execWrBuf k w s size = _ at h
    unfold execWrBuf at h
    rw [inBuf_eq_next] at h
    obtain ⟨h1, h2⟩ := h
    cases h2
    exact .buf k w rfl (by omega) rfl
  | rdBuf k =>
    change execRdBuf k s size = _ at h
    unfold execRdBuf at h
    rw [inBuf_eq_next] at h
    obtain ⟨h1, h2⟩ := h
    cases h2
    exact .ans _ (s.draws + 4) rfl (by simp) (not_runs (by intro op d; cases op <;> simp [Opcode.instr]) (by simp)) rfl
  | misaligned d o w => cases h; exact .mis d o w rfl rfl
  | _ => cases h; exact .ans _ s.draws rfl (by simp) (not_runs (by intro op d; cases op <;> simp [Opcode.instr]) (by simp)) rfl

/-- Every next state of an instruction of this hardware is one of `Ends`. -/
theorem exec_ends {i : Instr} {s t : State} (h : exec i s = .next t) : Ends Config.bufSize i s t :=
  execSized_ends ((execSized_bufSize _ _).trans h)

/-- The step of a pending access. -/
theorem step_access {s : State} {a rest} (h : s.pending = .access a :: rest) : step s = exec (decodeAccess a) { s with pending := rest } := by
  simp [step, receive, receiveBy, h]

/-- The accesses that write BUF. -/
theorem decode_push_buf {a : Access} : (∀ w, decodeAccess a = .wrPush w → a.dir = .write ∧ a.offset = 0x020) ∧ (∀ k w, decodeAccess a = .wrBuf k w → a.dir = .write ∧ k < 128 ∧ a.offset.toNat = 0x400 + 4*k) := by
  obtain ⟨d, o, w⟩ := a
  by_cases ha : Offset.aligned o = true
  · cases hr : regAt o with
    | some r => rw [regAt_eq_some] at hr; subst hr; rw [decodeAccess_reg]; cases d <;> cases r <;> simp [Reg.readInstr, Reg.writeInstr, Reg.offset]
    | none =>
      cases hw : windowWordAt o with
      | none => cases d <;> simp [decodeAccess, ha, hr, hw]
      | some k =>
        have hb := Config.windowBase_eq
        have hs := Config.bufSize_eq
        unfold windowWordAt at hw
        split at hw
        · cases hw
          rw [Offset.aligned, beq_iff_eq] at ha
          have hw : windowWordAt o = some ((o.toNat - Config.windowBase)/4) := by rw [windowWordAt, if_pos (by omega)]
          have ha' : Offset.aligned o = true := by rw [Offset.aligned, beq_iff_eq]; exact ha
          cases d
          · simp [decodeAccess, ha', hr, hw]
          · simp [decodeAccess, ha', hr, hw]; omega
        · cases hw
  · rw [decodeAccess_misaligned _ _ (by simpa using ha)]; simp

end Sys2Proof.Machine
end

