-- ==== Sys2Proof/Laws/PerInstr.lean ====
section
/-! SUPPORT. Statements for all instructions, one lemma per constructor. The family RoundTrip: decoding the encoding
of a well-formed instruction gives it back (spec/30_encoding.md R71, R73, R74), at every legal buffer size
(spec/00_scope.md R5). -/

namespace Sys2Proof.Laws

/-- Decoding what the encoder writes for a well-formed instruction gives the instruction back. -/
def RoundTrip.Statement (i : Instr) : Prop :=
  ∀ size, Config.legalSize size → i.wellFormed size = true → decode (encode i) size = .ok i

theorem RoundTrip.nop (d : Byte) : RoundTrip.Statement (.nop d) :=
  fun _ _ _ => decodeCmd_cmdWord .nop d

theorem RoundTrip.crcInit (d : Byte) : RoundTrip.Statement (.crcInit d) :=
  fun _ _ _ => decodeCmd_cmdWord .crcInit d

theorem RoundTrip.crcByte (d : Byte) : RoundTrip.Statement (.crcByte d) :=
  fun _ _ _ => decodeCmd_cmdWord .crcByte d

theorem RoundTrip.crcBuf (d : Byte) : RoundTrip.Statement (.crcBuf d) :=
  fun _ _ _ => decodeCmd_cmdWord .crcBuf d

theorem RoundTrip.crcVerify (d : Byte) : RoundTrip.Statement (.crcVerify d) :=
  fun _ _ _ => decodeCmd_cmdWord .crcVerify d

theorem RoundTrip.shapeLen (d : Byte) : RoundTrip.Statement (.shapeLen d) :=
  fun _ _ _ => decodeCmd_cmdWord .shapeLen d

theorem RoundTrip.shapeLenAt (d : Byte) : RoundTrip.Statement (.shapeLenAt d) :=
  fun _ _ _ => decodeCmd_cmdWord .shapeLenAt d

theorem RoundTrip.shapeCheck (d : Byte) : RoundTrip.Statement (.shapeCheck d) :=
  fun _ _ _ => decodeCmd_cmdWord .shapeCheck d

theorem RoundTrip.frameCheck (d : Byte) : RoundTrip.Statement (.frameCheck d) :=
  fun _ _ _ => decodeCmd_cmdWord .frameCheck d

theorem RoundTrip.bufClear (d : Byte) : RoundTrip.Statement (.bufClear d) :=
  fun _ _ _ => decodeCmd_cmdWord .bufClear d

theorem RoundTrip.errClear (d : Byte) : RoundTrip.Statement (.errClear d) :=
  fun _ _ _ => decodeCmd_cmdWord .errClear d

theorem RoundTrip.wrCmd (w : BusWord) : RoundTrip.Statement (.wrCmd w) :=
  fun size _ _ => congrArg Except.ok (decodeAccess_reg .write .cmd w size)

theorem RoundTrip.wrLen (w : BusWord) : RoundTrip.Statement (.wrLen w) :=
  fun size _ _ => congrArg Except.ok (decodeAccess_reg .write .len w size)

theorem RoundTrip.wrOff (w : BusWord) : RoundTrip.Statement (.wrOff w) :=
  fun size _ _ => congrArg Except.ok (decodeAccess_reg .write .off w size)

theorem RoundTrip.wrWlen (w : BusWord) : RoundTrip.Statement (.wrWlen w) :=
  fun size _ _ => congrArg Except.ok (decodeAccess_reg .write .wlen w size)

theorem RoundTrip.wrPush (w : BusWord) : RoundTrip.Statement (.wrPush w) :=
  fun size _ _ => congrArg Except.ok (decodeAccess_reg .write .push w size)

theorem RoundTrip.wrIdIgnored (w : BusWord) : RoundTrip.Statement (.wrIdIgnored w) :=
  fun size _ _ => congrArg Except.ok (decodeAccess_reg .write .id w size)

theorem RoundTrip.wrStatusIgnored (w : BusWord) : RoundTrip.Statement (.wrStatusIgnored w) :=
  fun size _ _ => congrArg Except.ok (decodeAccess_reg .write .status w size)

theorem RoundTrip.wrCrcIgnored (w : BusWord) : RoundTrip.Statement (.wrCrcIgnored w) :=
  fun size _ _ => congrArg Except.ok (decodeAccess_reg .write .crc w size)

theorem RoundTrip.wrResultIgnored (w : BusWord) : RoundTrip.Statement (.wrResultIgnored w) :=
  fun size _ _ => congrArg Except.ok (decodeAccess_reg .write .result w size)

theorem RoundTrip.wrCfgIgnored (w : BusWord) : RoundTrip.Statement (.wrCfgIgnored w) :=
  fun size _ _ => congrArg Except.ok (decodeAccess_reg .write .cfg w size)

theorem RoundTrip.rdId : RoundTrip.Statement .rdId :=
  fun size _ _ => congrArg Except.ok (decodeAccess_reg .read .id 0 size)

theorem RoundTrip.rdCmd : RoundTrip.Statement .rdCmd :=
  fun size _ _ => congrArg Except.ok (decodeAccess_reg .read .cmd 0 size)

theorem RoundTrip.rdStatus : RoundTrip.Statement .rdStatus :=
  fun size _ _ => congrArg Except.ok (decodeAccess_reg .read .status 0 size)

theorem RoundTrip.rdCrc : RoundTrip.Statement .rdCrc :=
  fun size _ _ => congrArg Except.ok (decodeAccess_reg .read .crc 0 size)

theorem RoundTrip.rdLen : RoundTrip.Statement .rdLen :=
  fun size _ _ => congrArg Except.ok (decodeAccess_reg .read .len 0 size)

theorem RoundTrip.rdOff : RoundTrip.Statement .rdOff :=
  fun size _ _ => congrArg Except.ok (decodeAccess_reg .read .off 0 size)

theorem RoundTrip.rdWlen : RoundTrip.Statement .rdWlen :=
  fun size _ _ => congrArg Except.ok (decodeAccess_reg .read .wlen 0 size)

theorem RoundTrip.rdResult : RoundTrip.Statement .rdResult :=
  fun size _ _ => congrArg Except.ok (decodeAccess_reg .read .result 0 size)

theorem RoundTrip.rdPush : RoundTrip.Statement .rdPush :=
  fun size _ _ => congrArg Except.ok (decodeAccess_reg .read .push 0 size)

theorem RoundTrip.rdCfg : RoundTrip.Statement .rdCfg :=
  fun size _ _ => congrArg Except.ok (decodeAccess_reg .read .cfg 0 size)

theorem RoundTrip.wrBuf (k : Nat) (w : BusWord) : RoundTrip.Statement (.wrBuf k w) :=
  fun _ hs h => congrArg Except.ok (decodeAccess_window .write w hs h)

theorem RoundTrip.rdBuf (k : Nat) : RoundTrip.Statement (.rdBuf k) :=
  fun _ hs h => congrArg Except.ok (decodeAccess_window .read 0 hs h)

theorem RoundTrip.rsvdAccess (d : Dir) (o : Offset) (w : BusWord) : RoundTrip.Statement (.rsvdAccess d o w) :=
  fun _ _ h => congrArg Except.ok (decodeAccess_reserved d w h)

theorem RoundTrip.misaligned (d : Dir) (o : Offset) (w : BusWord) : RoundTrip.Statement (.misaligned d o w) :=
  fun size _ h => congrArg Except.ok (decodeAccess_misaligned d w (by simpa [Instr.wellFormed] using h) size)

end Sys2Proof.Laws
end

