-- ==== Sys2Proof/Laws/Shape.lean ====
section
/-! SUPPORT. The shape primitives (spec/41_shape.md R120 to R127) read only the bytes of their view. -/

namespace Sys2Proof.Machine

theorem readLen_congr {W W' : Nat → Byte} {n : Nat} (h : ∀ k < n, W k = W' k) : readLen W n = readLen W' n := by
  unfold readLen
  have h8 : Config.fixedLen ≤ n → quantity W = quantity W' := fun hn => by
    have : 8 ≤ n := hn
    rw [quantity, quantity, h 4 (by omega), h 5 (by omega)]
  by_cases h3 : 3 ≤ n
  · rw [h 2 (by omega)]
    by_cases hn : Config.fixedLen ≤ n
    · rw [h8 hn]
    · simp [hn]
  · have hn : ¬Config.fixedLen ≤ n := fun hn => h3 (Nat.le_trans (by decide) hn)
    simp [h3, hn]

theorem multiWriteLen_congr {W W' : Nat → Byte} {n : Nat} (h : ∀ k < n, W k = W' k) :
    multiWriteLen W n = multiWriteLen W' n := by
  unfold multiWriteLen
  by_cases h7 : 7 ≤ n
  · rw [h 6 (by omega)]
  · simp [h7]

/-- The expected length depends on the bytes of the view only (R120). -/
theorem expectedLen_congr (fc : Byte) {W W' : Nat → Byte} {n : Nat} (h : ∀ k < n, W k = W' k) :
    expectedLen fc W n = expectedLen fc W' n := by
  simp only [expectedLen, readLen_congr h, multiWriteLen_congr h]

theorem expectedLenAt_congr {W W' : Nat → Byte} {n : Nat} (h : ∀ k < n, W k = W' k) :
    expectedLenAt W n = expectedLenAt W' n := by
  unfold expectedLenAt
  split
  · rfl
  · rw [h 1 (by omega), expectedLen_congr _ h]

/-- The frame check depends on the bytes of the frame only (R127). -/
theorem plausibleShape_congr {W W' : Nat → Byte} {n : Nat} (h : ∀ k < n, W k = W' k) : plausibleShape W n = plausibleShape W' n := by
  unfold plausibleShape
  split
  · rfl
  · rw [h 0 (by omega), h 1 (by omega), expectedLen_congr _ h]

/-- Bit 7 of a function code, as a bound on its number. -/
theorem fc_bit7 (fc : Byte) : fc.getLsbD 7 = true ↔ 128 ≤ fc.toNat := by revert fc; decide +kernel

/-- The function codes of each rule, as bounds on the number. -/
theorem fc_groups (fc : Byte) : ((fc = 1 ∨ fc = 2 ∨ fc = 3 ∨ fc = 4) ↔ 1 ≤ fc.toNat ∧ fc.toNat ≤ 4) ∧
   ((fc = 5 ∨ fc = 6) ↔ fc.toNat = 5 ∨ fc.toNat = 6) ∧ ((fc = 15 ∨ fc = 16) ↔ fc.toNat = 15 ∨ fc.toNat = 16) := by revert fc; decide +kernel

/-- The cases of R126 by the function code's number. -/
theorem expectedLen_eq (fc : Byte) (W : Nat → Byte) (avail : Nat) : expectedLen fc W avail =
  if 128 ≤ fc.toNat then exceptionLen avail
  else if 1 ≤ fc.toNat ∧ fc.toNat ≤ 4 then readLen W avail
  else if fc.toNat = 5 ∨ fc.toNat = 6 then singleWriteLen avail
  else if fc.toNat = 15 ∨ fc.toNat = 16 then multiWriteLen W avail
  else none := by
  simp only [expectedLen, fc_bit7, (fc_groups fc).1, (fc_groups fc).2.1, (fc_groups fc).2.2]

end Sys2Proof.Machine
end

