-- ==== Sys2Proof/Laws/Words.lean ====
section
/-! SUPPORT. Words put together from fields, as numbers (spec/10_state.md R34 to R39, spec/20_memory.md R54). -/

namespace Sys2Proof.Machine

/-- Words whose fields do not overlap are joined by addition. -/
theorem or_eq_add (x y : BusWord) (n : Nat) (hy : y.toNat < 2^n) (hx : x.toNat % 2^n = 0) : x ||| y = x + y := by
  rw [← BitVec.add_eq_or_of_and_eq_zero]
  apply BitVec.eq_of_toNat_eq
  rw [BitVec.toNat_and]
  obtain ⟨q, hq⟩ := Nat.dvd_of_mod_eq_zero hx
  rw [hq, Nat.and_comm]
  apply Nat.eq_of_testBit_eq
  intro i
  rw [Nat.testBit_and, Nat.testBit_two_pow_mul]
  by_cases hi : n ≤ i
  · rw [Nat.testBit_lt_two_pow (Nat.lt_of_lt_of_le hy (Nat.pow_le_pow_right (by decide) hi))]; simp
  · simp [hi]

/-- Four bytes as one word, lowest first. -/
theorem bytes_eq_ofNat (a b c d : Byte) : (d.setWidth 32 <<< 24) ||| (c.setWidth 32 <<< 16) ||| (b.setWidth 32 <<< 8) ||| a.setWidth 32 =
   BitVec.ofNat 32 (a.toNat + 256 * b.toNat + 65536 * c.toNat + 16777216 * d.toNat) := by
  have e := or_eq_add
  have := a.isLt; have := b.isLt; have := c.isLt; have := d.isLt
  have h1 : (c.setWidth 32 <<< 16 : BusWord).toNat = c.toNat * 65536 := by simp [Nat.shiftLeft_eq]; omega
  have h2 : (d.setWidth 32 <<< 24 : BusWord).toNat = d.toNat * 16777216 := by simp [Nat.shiftLeft_eq]; omega
  have h3 : (b.setWidth 32 <<< 8 : BusWord).toNat = b.toNat * 256 := by simp [Nat.shiftLeft_eq]; omega
  have h4 : (a.setWidth 32 : BusWord).toNat = a.toNat := by simp; omega
  rw [e _ (c.setWidth 32 <<< 16) 24 (by omega) (by omega)]
  rw [e _ (b.setWidth 32 <<< 8) 16 (by omega) (by rw [BitVec.toNat_add]; omega)]
  rw [e _ (a.setWidth 32) 8 (by omega) (by rw [BitVec.toNat_add, BitVec.toNat_add]; omega)]
  apply BitVec.eq_of_toNat_eq
  rw [BitVec.toNat_add, BitVec.toNat_add, BitVec.toNat_add, BitVec.toNat_ofNat]
  omega

/-- A 16-bit field read as a word. -/
theorem half_setWidth (x : Half) : x.setWidth 32 = BitVec.ofNat 32 x.toNat := by
  apply BitVec.eq_of_toNat_eq
  have := x.isLt
  rw [BitVec.toNat_setWidth, BitVec.toNat_ofNat]

end Sys2Proof.Machine
end

