-- ==== Sys2Proof/Tests/Slice0.lean ====
section
/-! SUPPORT. The model's own tests: ill-formed terms, words written out from the spec's encodings, single steps with
the results of spec/95_test_vectors.md (V<n>) or of the rules' own examples, and a witness for the hypotheses of each
statement of Certificates/Slice0/Obligations.lean. -/

namespace Sys2Proof.Tests

open Sys2Proof.Machine Sys2Proof.Safety

/-! ## Helpers -/

/-- The state an operation leaves, if it leaves one. -/
def after : Host.Outcome State Fault Refusal → Option State
  | .next t => some t
  | .fault _ => none
  | .refused _ => none

/-- The answer an operation gives. -/
def answerOf (o : Host.Outcome State Fault Refusal) : Option Response := (after o).bind fun t => t.responses.head?

/-- The reset state with a frame loaded at BUF[0], LEN its length, and a window. -/
def loaded (bs : List Byte) (off wlen : Half) : State :=
  { State.reset with
    buf := Memory.writeBytes [] 0 bs, len := BitVec.ofNat 16 bs.length, off := off, wlen := wlen }

/-- The reset state with one host event pending. -/
def waiting (e : HostEvent) : State := { State.reset with pending := [e] }

/-- STATUS = 0x21 (V61). -/
def failed : State := { State.reset with lastErr := true, errCode := 2 }

/-- Example 1 of the source (V1). -/
def ex1 : List Byte := [0x01, 0x03, 0x00, 0x00, 0x00, 0x01, 0x84, 0x0A]

/-- Example 2 of the source as printed (V2). -/
def ex2 : List Byte := [0x01, 0x03, 0x02, 0x00, 0x2A, 0xB9, 0xC4]

/-- A full buffer. -/
def full : State := { State.reset with len := 512 }

/-- An operation that leaves a state answers a next state. -/
theorem next_of {o : Host.Outcome State Fault Refusal} (h : (after o).isSome = true) : ∃ t, o = .next t := by
  cases o with
  | next t => exact ⟨t, rfl⟩
  | fault => cases h
  | refused => cases h

theorem lenInBuf_of {s : State} (h : s.len.toNat ≤ 512) : lenInBuf s := h

theorem inRange_of {s : State} {op : Opcode} (h : s.off.toNat + s.wlen.toNat ≤ s.len.toNat) : inRange s op :=
  ⟨fun _ => h, fun _ => by omega⟩

theorem not_inRange_window {s : State} {op : Opcode} (hm : op ∈ windowOps)
    (h : s.len.toNat < s.off.toNat + s.wlen.toNat) : ¬inRange s op := fun hr => by have := hr.1 hm; omega

theorem not_inRange_view {s : State} {op : Opcode} (hm : op ∈ viewOps) (h : s.len.toNat < s.off.toNat) :
    ¬inRange s op := fun hr => by have := hr.2 hm; omega

/-! ## Well-formedness: an ill-formed term for each check -/

theorem test_wf_window_word : Instr.wellFormed (.wrBuf 128 0) = false ∧ Instr.wellFormed (.rdBuf 128) = false ∧
    Instr.wellFormed (.wrBuf 127 0) = true ∧ Instr.wellFormed (.rdBuf 127) = true := by decide

theorem test_wf_reserved_offset : Instr.wellFormed (.rsvdAccess .read 0x024 0) = false ∧
    Instr.wellFormed (.rsvdAccess .write 0x5FC 0) = false ∧ Instr.wellFormed (.rsvdAccess .read 0x029 0) = false ∧
    Instr.wellFormed (.rsvdAccess .read 0x028 0) = true ∧ Instr.wellFormed (.rsvdAccess .write 0x600 0) = true := by
  decide

theorem test_wf_misaligned_offset : Instr.wellFormed (.misaligned .read 0x004 0) = false ∧
    Instr.wellFormed (.misaligned .write 0x005 0) = true := by decide

theorem test_wf_asm : Asm.wellFormed (.command .crcByte none) = false ∧ Asm.wellFormed (.command .shapeLen none) = false ∧
    Asm.wellFormed (.writeBuf 128 0) = false ∧ Asm.wellFormed (.readBuf 128) = false ∧
    Asm.wellFormed (.command .nop none) = true := by decide

/-! ## Decoding: the words of R71, R73, R74, and the keys of R80 -/

theorem test_decode_commands :
    decodeCmd 0x00000000 = .ok (.nop 0x00) ∧ decodeCmd 0x00000001 = .ok (.crcInit 0x00) ∧
    decodeCmd 0x00000302 = .ok (.crcByte 0x03) ∧ decodeCmd 0x00000003 = .ok (.crcBuf 0x00) ∧
    decodeCmd 0x00000004 = .ok (.crcVerify 0x00) ∧ decodeCmd 0x00008310 = .ok (.shapeLen 0x83) ∧
    decodeCmd 0x0000FF11 = .ok (.shapeLenAt 0xFF) ∧ decodeCmd 0x00000012 = .ok (.shapeCheck 0x00) ∧
    decodeCmd 0x00000013 = .ok (.frameCheck 0x00) ∧ decodeCmd 0x00000020 = .ok (.bufClear 0x00) ∧
    decodeCmd 0x00000021 = .ok (.errClear 0x00) :=
  ⟨rfl, rfl, rfl, rfl, rfl, rfl, rfl, rfl, rfl, rfl, rfl⟩

/-- V62, V63: the undefined words are rejected by name. -/
theorem test_decode_rejects :
    decodeCmd 0x00010001 = .error .eRsvd ∧ decodeCmd 0xFFFF00FF = .error .eRsvd ∧
    decodeCmd 0x0000007F = .error .eOpcode ∧ decodeCmd 0x00000005 = .error .eOpcode ∧
    decodeCmd 0x0000000F = .error .eOpcode ∧ decodeCmd 0x00000014 = .error .eOpcode ∧
    decodeCmd 0x00000022 = .error .eOpcode ∧ decodeCmd 0x000000FF = .error .eOpcode :=
  ⟨rfl, rfl, rfl, rfl, rfl, rfl, rfl, rfl⟩

theorem test_decode_writes :
    decodeAccess ⟨.write, 0x004, 0x13⟩ = .wrCmd 0x13 ∧ decodeAccess ⟨.write, 0x010, 513⟩ = .wrLen 513 ∧
    decodeAccess ⟨.write, 0x014, 8⟩ = .wrOff 8 ∧ decodeAccess ⟨.write, 0x018, 7⟩ = .wrWlen 7 ∧
    decodeAccess ⟨.write, 0x020, 0x103⟩ = .wrPush 0x103 ∧ decodeAccess ⟨.write, 0x400, 0x301⟩ = .wrBuf 0 0x301 ∧
    decodeAccess ⟨.write, 0x5FC, 1⟩ = .wrBuf 127 1 ∧ decodeAccess ⟨.write, 0x000, 1⟩ = .wrIdIgnored 1 ∧
    decodeAccess ⟨.write, 0x008, 1⟩ = .wrStatusIgnored 1 ∧ decodeAccess ⟨.write, 0x00C, 1⟩ = .wrCrcIgnored 1 ∧
    decodeAccess ⟨.write, 0x01C, 1⟩ = .wrResultIgnored 1 ∧ decodeAccess ⟨.write, 0x024, 1⟩ = .wrCfgIgnored 1 := by
  decide

theorem test_decode_reads :
    decodeAccess ⟨.read, 0x000, 0⟩ = .rdId ∧ decodeAccess ⟨.read, 0x004, 0⟩ = .rdCmd ∧
    decodeAccess ⟨.read, 0x008, 0⟩ = .rdStatus ∧ decodeAccess ⟨.read, 0x00C, 0⟩ = .rdCrc ∧
    decodeAccess ⟨.read, 0x010, 0⟩ = .rdLen ∧ decodeAccess ⟨.read, 0x014, 0⟩ = .rdOff ∧
    decodeAccess ⟨.read, 0x018, 0⟩ = .rdWlen ∧ decodeAccess ⟨.read, 0x01C, 0⟩ = .rdResult ∧
    decodeAccess ⟨.read, 0x020, 0⟩ = .rdPush ∧ decodeAccess ⟨.read, 0x024, 0⟩ = .rdCfg ∧
    decodeAccess ⟨.read, 0x404, 0⟩ = .rdBuf 1 ∧ decodeAccess ⟨.read, 0x5FC, 9⟩ = .rdBuf 127 := by
  decide

/-- V67, V69, V70. -/
theorem test_decode_other_offsets :
    decodeAccess ⟨.read, 0x028, 0⟩ = .rsvdAccess .read 0x028 0 ∧
    decodeAccess ⟨.write, 0x3FC, 5⟩ = .rsvdAccess .write 0x3FC 5 ∧
    decodeAccess ⟨.write, 0x600, 5⟩ = .rsvdAccess .write 0x600 5 ∧
    decodeAccess ⟨.read, 0xFFC, 0⟩ = .rsvdAccess .read 0xFFC 0 ∧
    decodeAccess ⟨.read, 0x002, 0⟩ = .misaligned .read 0x002 0 ∧
    decodeAccess ⟨.write, 0x005, 1⟩ = .misaligned .write 0x005 1 ∧
    decodeAccess ⟨.write, 0x401, 0x12345678⟩ = .misaligned .write 0x401 0x12345678 := by decide

/-- Keys and words of spec/opcode_table.json (R80). -/
theorem test_table_words :
    decodeTableWord 32 0x00000002 = some (.crcByte 0) ∧ decodeTableWord 32 0x00001010 = some (.shapeLen 0x10) ∧
    decodeTableWord 32 0x00000005 = none ∧ decodeTableWord 32 0x00010000 = none ∧
    decodeTableWord 16 0x1004 = some (.wrCmd 0) ∧ decodeTableWord 16 0x1020 = some (.wrPush 0) ∧
    decodeTableWord 16 0x1400 = some (.wrBuf 0 0) ∧ decodeTableWord 16 0x0400 = some (.rdBuf 0) ∧
    decodeTableWord 16 0x001C = some .rdResult ∧ decodeTableWord 16 0x0001 = some (.misaligned .read 0x001 0) ∧
    decodeTableWord 16 0x1028 = some (.rsvdAccess .write 0x028 0) ∧ decodeTableWord 16 0x2000 = none :=
  ⟨rfl, rfl, rfl, rfl, rfl, rfl, rfl, rfl, rfl, rfl, rfl, rfl⟩

/-- A word placed for the next step is the one that runs: CRC_BYTE 0x01 (R105's example), a PUSH, a misaligned read. -/
theorem test_fetch_word :
    (after (step (State.reset.withFetchWord 32 0x00000102))).map State.crc = some 0x807E ∧
    (after (step (State.reset.withFetchWord 16 0x1020))).map State.len = some 1 ∧
    (after (step (State.reset.withFetchWord 16 0x0002))).map State.errCode = some 6 := by decide +kernel

/-- R42, R43: the last BUF window word and what follows it, for the smallest and the largest size of R5. -/
theorem test_decode_window_sizes :
    decodeAccess ⟨.write, 0x500, 1⟩ 260 = .wrBuf 64 1 ∧ decodeAccess ⟨.write, 0x504, 1⟩ 260 = .rsvdAccess .write 0x504 1 ∧
    decodeAccess ⟨.read, 0xFFC, 0⟩ 3072 = .rdBuf 767 ∧ decodeAccess ⟨.read, 0x3FC, 0⟩ 3072 = .rsvdAccess .read 0x3FC 0 := by
  decide

/-- R41, R153, R156: CFG reads the size, LEN is checked against it, and a PUSH at it overflows. -/
theorem test_sizes :
    answerOf (execSized 3072 .rdCfg State.reset) = some ⟨3072, .ok⟩ ∧
    (after (execSized 260 (.wrLen 261) State.reset)).map State.statusWord = some 0x41 ∧
    (after (execSized 3072 (.wrLen 3072) State.reset)).map (fun t => (t.statusWord, t.len)) = some (0, 3072) ∧
    (after (execSized 260 (.wrPush 1) { full with len := 260 })).map State.statusWord = some 0x51 ∧
    (after (stepSized 3072 { waiting (.access ⟨.write, 0xFFC, 0x44332211⟩) with len := 8 })).map State.buf =
      some [(3068, 0x11), (3069, 0x22), (3070, 0x33), (3071, 0x44)] := by decide +kernel

/-! ## Single steps: commands -/

/-- V61. -/
theorem test_nop : (after (exec (.nop 0) failed)).map State.statusWord = some 0x20 := by decide

/-- R104's example. -/
theorem test_crcInit : (after (exec (.crcInit 0) { State.reset with crc := 0x1234 })).map State.crc = some 0xFFFF := by
  decide

/-- R105: 0x00 is a real byte. -/
theorem test_crcByte_zero : (after (exec (.crcByte 0) State.reset)).map State.crc = some 0x40BF := by decide +kernel

/-- V12: the last step of the stream. -/
theorem test_crcByte_stream :
    (after (exec (.crcByte 1) { State.reset with crc := 0x8419 })).map State.crc = some 0x0A84 := by decide +kernel

/-- V18. -/
theorem test_crcBuf : (after (exec (.crcBuf 0) { loaded ex1 0 6 with crc := 0x55 })).map State.crc = some 0x0A84 := by
  decide +kernel

/-- V64: the sum is computed without wrap. -/
theorem test_crcBuf_no_wrap :
    (after (exec (.crcBuf 0) (loaded ex1 0xFFFF 0xFFFF))).map State.statusWord = some 0x31 := by decide

/-- V26. -/
theorem test_crcVerify_mismatch :
    (after (exec (.crcVerify 0) (loaded ex2 0 7))).map (fun t => (t.crc, t.crcOk, t.statusWord)) =
      some (0x9B39, false, 0) := by decide +kernel

/-- V15: WLEN = 2 compares with the seed; the window starts at OFF here. -/
theorem test_crcVerify_two_bytes :
    (after (exec (.crcVerify 0) { loaded [0x00, 0xFF, 0xFF] 1 2 with crc := 0x807E })).map
      (fun t => (t.crc, t.crcOk)) = some (0xFFFF, true) := by decide +kernel

/-- V52 (a): the function code is DATA. -/
theorem test_shapeLen_exception :
    (after (exec (.shapeLen 0x83) (loaded ex1 0 0))).map State.resultWord = some 0x00010005 := by decide

/-- V52 (a): byte 6 asks for more bytes than there are. -/
theorem test_shapeLen_multi :
    (after (exec (.shapeLen 0x10) (loaded ex1 0 0))).map State.resultWord = some 0x00010008 := by decide

/-- V52 (b), OFF 8. -/
theorem test_shapeLenAt_response :
    (after (exec (.shapeLenAt 0) (loaded (ex1 ++ ex2) 8 0))).map State.resultWord = some 0x00010007 := by decide

/-- V52 (b), OFF 14: only one byte, so no function code. -/
theorem test_shapeLenAt_one_byte :
    (after (exec (.shapeLenAt 0) { loaded (ex1 ++ ex2) 14 0 with expLen := 7, lenValid := true })).map
      State.resultWord = some 0 := by decide

/-- R131's example. -/
theorem test_shapeCheck :
    (after (exec (.shapeCheck 0) (loaded [0x11, 0x05, 0x00, 0xAC, 0xFF, 0x00, 0x4E, 0x8B] 0 8))).map
      State.resultWord = some 0x00040000 := by decide

/-- V50: slave 248. -/
theorem test_shapeCheck_slave :
    (after (exec (.shapeCheck 0) { loaded [0xF8, 0x06, 0x00, 0x01, 0x00, 0x03, 0x8C, 0x62] 0 8 with
      shapeOk := true })).map State.shapeOk = some false := by decide

/-- V24: SHAPE_OK = 0 with CRC_OK = 1. -/
theorem test_frameCheck_mixed :
    (after (exec (.frameCheck 0) (loaded [0x01, 0x83, 0x02, 0xC0, 0xF1, 0x00] 0 6))).map
      (fun t => (t.resultWord, t.crc)) = some (0x00020000, 0x00F1) := by decide +kernel

/-- V42: a write-multiple request. -/
theorem test_frameCheck_multi :
    (after (exec (.frameCheck 0)
      (loaded [0x01, 0x10, 0x00, 0x01, 0x00, 0x02, 0x04, 0x00, 0x0A, 0x01, 0x02, 0x92, 0x30] 0 13))).map
      (fun t => (t.resultWord, t.crc)) = some (0x00060000, 0x3092) := by decide +kernel

/-- V71. -/
theorem test_bufClear : (after (exec (.bufClear 0) (loaded ex1 0 8))).map (fun t => (t.len, t.wlen, t.buf)) =
    some (0, 8, (loaded ex1 0 8).buf) := by decide

/-- R152's example. -/
theorem test_errClear : (after (exec (.errClear 0) failed)).map State.statusWord = some 0 := by decide

/-- V62: RSVD is checked before OP, and CRC_INIT does not run. -/
theorem test_wrCmd_rsvd :
    (after (exec (.wrCmd 0x00010001) { State.reset with crc := 0x0A84 })).map (fun t => (t.statusWord, t.crc)) =
      some (0x11, 0x0A84) := by decide

/-- R105's example, issued through CMD. -/
theorem test_wrCmd_crcByte : (after (exec (.wrCmd 0x00000102) State.reset)).map State.crc = some 0x807E := by
  decide +kernel

/-! ## Single steps: register and BUF window writes -/

/-- V65. -/
theorem test_wrLen_rejects : (after (exec (.wrLen 513) (loaded ex1 0 0))).map (fun t => (t.statusWord, t.len)) =
    some (0x41, 8) := by decide

/-- V65: bits [31:16] are ignored. -/
theorem test_wrLen_upper_bits : (after (exec (.wrLen 0x00010005) State.reset)).map State.len = some 5 := by decide

/-- V72. -/
theorem test_wrOff : (after (exec (.wrOff 0xFFFF0003) failed)).map (fun t => (t.off, t.wlen, t.statusWord)) =
    some (3, 0, 0x20) := by decide

/-- V72. -/
theorem test_wrWlen : (after (exec (.wrWlen 0x00050000) (loaded ex1 1 6))).map (fun t => (t.off, t.wlen)) =
    some (1, 0) := by decide

/-- R156's example, the second write. -/
theorem test_wrPush : (after (exec (.wrPush 0x103) (loaded [0x01] 0 0))).map (fun t => (t.buf, t.len)) =
    some ([(0, 0x01), (1, 0x03)], 2) := by decide

/-- V66. -/
theorem test_wrPush_full : (after (exec (.wrPush 0x55) full)).map (fun t => (t.statusWord, t.len, t.buf)) =
    some (0x51, 512, []) := by decide

/-- V70. -/
theorem test_wrBuf : (after (exec (.wrBuf 1 0x0A840100) State.reset)).map (fun t => (t.buf, t.len)) =
    some ([(4, 0x00), (5, 0x01), (6, 0x84), (7, 0x0A)], 0) := by decide

/-- The last word of the window, over a byte written before. -/
theorem test_wrBuf_last :
    (after (exec (.wrBuf 127 0x44332211) { State.reset with buf := [(509, 0xFF)] })).map State.buf =
      some [(508, 0x11), (509, 0x22), (510, 0x33), (511, 0x44)] := by decide

/-! ## Single steps: ignored writes, reads, reserved and misaligned accesses -/

/-- V69: nothing changes, STATUS included; the answer is OK with data 0. -/
theorem test_ignored_writes :
    exec (.wrIdIgnored 0) failed = answer 0 failed ∧ exec (.wrStatusIgnored 0) failed = answer 0 failed ∧
    exec (.wrCrcIgnored 0) failed = answer 0 failed ∧ exec (.wrResultIgnored 0) failed = answer 0 failed ∧
    exec (.wrCfgIgnored 0) failed = answer 0 failed ∧ answerOf (answer 0 failed) = some ⟨0, .ok⟩ ∧
    (after (answer 0 failed)).map State.statusWord = some 0x21 :=
  ⟨rfl, rfl, rfl, rfl, rfl, rfl, by decide⟩

/-- V60: the reset values as they are read. -/
theorem test_reset_reads :
    answerOf (exec .rdId State.reset) = some ⟨0x4D424301, .ok⟩ ∧ answerOf (exec .rdCfg State.reset) = some ⟨0x200, .ok⟩ ∧
    answerOf (exec .rdCrc State.reset) = some ⟨0xFFFF, .ok⟩ ∧ answerOf (exec .rdLen State.reset) = some ⟨0, .ok⟩ ∧
    answerOf (exec .rdOff State.reset) = some ⟨0, .ok⟩ ∧ answerOf (exec .rdWlen State.reset) = some ⟨0, .ok⟩ ∧
    answerOf (exec .rdResult State.reset) = some ⟨0, .ok⟩ ∧ answerOf (exec .rdStatus State.reset) = some ⟨0, .ok⟩ ∧
    answerOf (exec .rdCmd State.reset) = some ⟨0, .ok⟩ ∧ answerOf (exec .rdPush State.reset) = some ⟨0, .ok⟩ := by
  decide

/-- Reads of values other than those of reset: V69 for STATUS, V1 for RESULT and CRC, the register writes of V2. -/
theorem test_other_reads :
    answerOf (exec .rdStatus failed) = some ⟨0x21, .ok⟩ ∧
    answerOf (exec .rdResult { State.reset with expLen := 8, lenValid := true, crcOk := true, shapeOk := true }) =
      some ⟨0x00070008, .ok⟩ ∧
    answerOf (exec .rdCrc { State.reset with crc := 0x0A84 }) = some ⟨0x0A84, .ok⟩ ∧
    answerOf (exec .rdLen (loaded ex2 3 7)) = some ⟨7, .ok⟩ ∧ answerOf (exec .rdOff (loaded ex2 3 7)) = some ⟨3, .ok⟩ ∧
    answerOf (exec .rdWlen (loaded ex1 3 7)) = some ⟨7, .ok⟩ := by
  decide

/-- V70: four pushed bytes read as one word, lowest index in the lowest bits. -/
theorem test_rdBuf : answerOf (exec (.rdBuf 0) (loaded [0x01, 0x02, 0x03, 0x04] 0 0)) = some ⟨0x04030201, .ok⟩ := by
  decide

/-- V71: bytes at or above LEN are readable. -/
theorem test_rdBuf_above_len :
    answerOf (exec (.rdBuf 0) { loaded ex1 0 0 with len := 0 }) = some ⟨0x00000301, .ok⟩ := by decide

/-- V69. -/
theorem test_rsvdAccess : exec (.rsvdAccess .read 0x028 0) failed = answer 0 failed ∧
    exec (.rsvdAccess .write 0x028 0xFFFFFFFF) failed = answer 0 failed := ⟨rfl, rfl⟩

/-- V67. -/
theorem test_misaligned : answerOf (exec (.misaligned .read 0x002 0) State.reset) = some ⟨0, .err⟩ ∧
    (after (exec (.misaligned .write 0x401 0x12345678) State.reset)).map (fun t => (t.statusWord, t.buf)) =
      some (0x61, []) := by decide

/-- R171: ERRCODE keeps the first code. -/
theorem test_misaligned_sticky :
    (after (exec (.misaligned .read 0x002 0) failed)).map State.statusWord = some 0x21 := by decide

/-! ## Witnesses: for each statement with hypotheses, concrete states and operands that meet them, clause by clause -/

/-- Example 1 with a byte flipped. -/
def flipped : Nat → Byte := fun k => if k = 7 then 0x0A ^^^ (1#8 <<< 7) else viewOf ex1 k

/-- The words that issue an opcode: one with RSVD = 0, and one with RSVD = 0xFFFF: the hypotheses of `issues` in the
statements of the eleven commands (CrcInitSetsSeed, CrcByteFoldsData, NopOnlyClearsLastErr and BufClearKeepsBytes have
no others). -/
theorem witness_issues : ∀ op ∈ [Opcode.nop, .crcInit, .crcByte, .crcBuf, .crcVerify, .shapeLen, .shapeLenAt,
    .shapeCheck, .frameCheck, .bufClear, .errClear],
    (cmdWord op 0xFF).extractLsb' 0 8 = op.code ∧ (cmdWord op 0xFF).extractLsb' 16 16 = 0 ∧
    (0xFFFF0000 ||| cmdWord op 0).extractLsb' 0 8 = op.code ∧
    (0xFFFF0000 ||| cmdWord op 0).extractLsb' 16 16 ≠ 0 := by decide

theorem witness_ResetLeavesSpecifiedState : (waiting .reset).pending = .reset :: [] ∧
    (after (step { waiting .reset with crc := 0x1234, len := 8 })).map (fun t => (t.crc, t.len)) = some (0xFFFF, 0) := by
  decide

/-- A PUSH at LEN 511, and a write of the last BUF window word. -/
theorem witness_ResetAbandonsAccess :
    (waiting (.resetDuring ⟨.write, 0x020, 0x41⟩)).pending = .resetDuring ⟨.write, 0x020, 0x41⟩ :: [] ∧
    (∃ t, step { waiting (.resetDuring ⟨.write, 0x020, 0x41⟩) with len := 511 } = .next t ∧ t.len = 0) ∧
    (∃ t, step (waiting (.resetDuring ⟨.write, 0x5FC, 0x44332211⟩)) = .next t ∧ t.responses = []) :=
  ⟨rfl, ⟨_, rfl, rfl⟩, ⟨_, rfl, rfl⟩⟩

theorem witness_StepRunsNextAccess :
    (waiting (.access ⟨.read, 0x000, 0⟩)).pending = .access ⟨.read, 0x000, 0⟩ :: [] ∧
    (waiting (.access ⟨.write, 0x004, 0x00000302⟩)).pending = .access ⟨.write, 0x004, 0x00000302⟩ :: [] ∧
    decodeCmd 0x00000302 = .ok (.crcByte 3) ∧ State.reset.pending = [] := ⟨rfl, rfl, rfl, rfl⟩

theorem witness_DecodeEncodeRoundTrip : ∀ i ∈ [Instr.nop 0xFF, .crcByte 0, .wrCmd 0xFFFFFFFF, .wrBuf 127 1, .rdBuf 0,
    .rsvdAccess .write 0x3FC 1, .rsvdAccess .read 0xFFC 0, .misaligned .read 0xFFF 0], i.wellFormed = true := by decide

theorem witness_DecodedCodeEncodesBack : decode (.cmd 0x0000FF00) = .ok (.nop 0xFF) ∧
    decode (.bus ⟨.read, 0x5FC, 7⟩) = .ok (.rdBuf 127) ∧ decode (.bus ⟨.write, 0x020, 7⟩) = .ok (.wrPush 7) :=
  ⟨rfl, rfl, rfl⟩

/-- The first and the last BUF window word, reserved range ends, and misaligned offsets. -/
theorem witness_AlignedAccessMap :
    (0 < 128 ∧ (0x400 : Offset).toNat = 0x400 + 4 * 0 ∧ 127 < 128 ∧ (0x5FC : Offset).toNat = 0x400 + 4 * 127) ∧
    (([0x028, 0x3FC, 0x600, 0xFFC] : List Offset).all fun o => decide (o.toNat % 4 = 0 ∧ 0x024 < o.toNat ∧
      ¬(0x400 ≤ o.toNat ∧ o.toNat < 0x600))) = true ∧
    (([0x001, 0x5FE, 0xFFF] : List Offset).all fun o => decide (o.toNat % 4 ≠ 0)) = true := by decide

theorem witness_CommandWordCheckOrder :
    ((0xFFFF00FF#32).extractLsb' 16 16 ≠ 0#16) ∧
    ((0x000000FF#32).extractLsb' 16 16 = 0#16 ∧ (0x000000FF#32).extractLsb' 0 8 ∉
      ([0x00, 0x01, 0x02, 0x03, 0x04, 0x10, 0x11, 0x12, 0x13, 0x20, 0x21] : List Byte)) ∧
    ((0x0000FF21#32).extractLsb' 16 16 = 0#16 ∧ (0x0000FF21#32).extractLsb' 0 8 = Opcode.code .errClear) ∧
    (Opcode.errClear ≠ .crcByte ∧ Opcode.errClear ≠ .shapeLen) := by decide

theorem witness_DefinedCommandWriteCompletes :
    (0x00000013#32).extractLsb' 16 16 = 0#16 ∧ (0x00000013#32).extractLsb' 0 8 = Opcode.code .frameCheck ∧
    lenInBuf full ∧ inRange { full with off := 512 } .frameCheck ∧ inRange (loaded ex1 0 8) .shapeLen :=
  ⟨rfl, rfl, lenInBuf_of (by decide), inRange_of (by decide), inRange_of (by decide)⟩

/-- The host addresses on either side of the register space. -/
theorem witness_BaseAddressSelectsOffset : selectOffset 0x10000 0xFFFF = none ∧ selectOffset 0x10000 0x11000 = none ∧
    selectOffset 0x10000 0x10FFF = some 0xFFF ∧ 0xFFFF < 0x10000 ∧ 0x10000 + 4096 ≤ 0x11000 := by decide

theorem witness_PseudoInstructionsExpand : Opcode.nop ≠ .crcByte ∧ Opcode.nop ≠ .shapeLen := by decide

theorem witness_CrcVerifyComparesTrailer : 1 < 2 ∧ 2 ≤ 2 ∧ crcVerify (viewOf [0xFF, 0xFF]) 2 = true := by
  decide +kernel

/-- A window one byte too long, and one that ends at LEN. -/
theorem witness_CrcBufComputesWindow : (loaded ex1 4 5).len.toNat < (loaded ex1 4 5).off.toNat + (loaded ex1 4 5).wlen.toNat ∧
    ((loaded ex1 4 4).off.toNat + (loaded ex1 4 4).wlen.toNat ≤ (loaded ex1 4 4).len.toNat ∧ lenInBuf (loaded ex1 4 4)) :=
  ⟨by decide, by decide, lenInBuf_of (by decide)⟩

/-- Windows one byte too long, of 1 byte, of 2 bytes, and of bytes that were all written. -/
theorem witness_CrcVerifyChecksWindow :
    (loaded ex1 4 5).len.toNat < (loaded ex1 4 5).off.toNat + (loaded ex1 4 5).wlen.toNat ∧
    ((loaded ex1 7 1).off.toNat + (loaded ex1 7 1).wlen.toNat ≤ (loaded ex1 7 1).len.toNat ∧ lenInBuf (loaded ex1 7 1) ∧
      (loaded ex1 7 1).wlen.toNat < 2) ∧
    ((loaded ex1 0 8).off.toNat + (loaded ex1 0 8).wlen.toNat ≤ (loaded ex1 0 8).len.toNat ∧ lenInBuf (loaded ex1 0 8) ∧
      2 ≤ (loaded ex1 0 8).wlen.toNat ∧
      ∀ k < (loaded ex1 0 8).wlen.toNat, Memory.read? (loaded ex1 0 8).buf ((loaded ex1 0 8).off.toNat + k) =
        some (viewOf ex1 k)) :=
  ⟨by decide, ⟨by decide, lenInBuf_of (by decide), by decide⟩, by decide, lenInBuf_of (by decide), by decide, by decide⟩

theorem witness_CrcByteStreamChains :
    ({ State.reset with pending := [.access ⟨.write, 0x004, 0x00000001⟩, .access ⟨.write, 0x004, 0x00000102⟩,
      .access ⟨.write, 0x004, 0x00000302⟩] } : State).pending = .access ⟨.write, 0x004, 0x00000001⟩ ::
      (([0x01, 0x03] : List Byte).map fun b : Byte =>
        HostEvent.access ⟨.write, 0x004, (b.setWidth 32 <<< 8) ||| 0x02⟩) ++ [] := by decide

/-- Example 1 is six bytes and their CRC, low byte first. -/
theorem witness_TrailerVerifies : (loaded ex1 0 8).wlen.toNat = 6 + 2 ∧
    (loaded ex1 0 8).off.toNat + (loaded ex1 0 8).wlen.toNat ≤ (loaded ex1 0 8).len.toNat ∧ lenInBuf (loaded ex1 0 8) ∧
    (∀ k < 6, Memory.read? (loaded ex1 0 8).buf ((loaded ex1 0 8).off.toNat + k) = some (viewOf ex1 k)) ∧
    Memory.read? (loaded ex1 0 8).buf ((loaded ex1 0 8).off.toNat + 6) =
      some ((crcCompute (viewOf ex1) 6).extractLsb' 0 8) ∧
    Memory.read? (loaded ex1 0 8).buf ((loaded ex1 0 8).off.toNat + 6 + 1) =
      some ((crcCompute (viewOf ex1) 6).extractLsb' 8 8) :=
  ⟨by decide, by decide, lenInBuf_of (by decide), by decide, by decide +kernel, by decide +kernel⟩

theorem witness_VerifiedFrameResidueIsZero : crcVerify (viewOf ex1) 8 = true := by decide +kernel

theorem witness_SingleBitFlipDetected : crcVerify (viewOf ex1) 8 = true ∧ 7 < 8 ∧
    flipped 7 = viewOf ex1 7 ^^^ (1#8 <<< 7) ∧ ∀ k, k ≠ 7 → flipped k = viewOf ex1 k :=
  ⟨by decide +kernel, by decide, by decide, fun _ h => if_neg h⟩

/-- The ends of each range of function codes, quantities and byte counts. -/
theorem witness_ExpectedLengthPerFunctionCode :
    (([0x80, 0xFF] : List Byte).all fun fc => decide (128 ≤ fc.toNat)) = true ∧
    (([1, 4] : List Byte).all fun fc => decide (1 ≤ fc.toNat ∧ fc.toNat ≤ 4)) = true ∧
    (([1, 125] : List Byte).all fun q => decide (8 ≤ 8 ∧ 1 ≤ 256 * (viewOf [0, 0, 0, 0, 0, q] 4).toNat +
      (viewOf [0, 0, 0, 0, 0, q] 5).toNat ∧ 256 * (viewOf [0, 0, 0, 0, 0, q] 4).toNat +
      (viewOf [0, 0, 0, 0, 0, q] 5).toNat ≤ 125)) = true ∧
    (([0, 126] : List Byte).all fun q => decide (¬(8 ≤ 8 ∧ 1 ≤ 256 * (viewOf [0, 0, 0, 0, 0, q] 4).toNat +
      (viewOf [0, 0, 0, 0, 0, q] 5).toNat ∧ 256 * (viewOf [0, 0, 0, 0, 0, q] 4).toNat +
      (viewOf [0, 0, 0, 0, 0, q] 5).toNat ≤ 125))) = true ∧
    (([1, 250] : List Byte).all fun b => decide (3 ≤ 255 ∧ 1 ≤ (viewOf [0, 0, b] 2).toNat ∧
      (viewOf [0, 0, b] 2).toNat ≤ 250 ∧ 5 + (viewOf [0, 0, b] 2).toNat ≤ 255)) = true ∧
    (([0, 251] : List Byte).all fun b => decide (¬(3 ≤ 256 ∧ 1 ≤ (viewOf [0, 0, b] 2).toNat ∧
      (viewOf [0, 0, b] 2).toNat ≤ 250 ∧ 5 + (viewOf [0, 0, b] 2).toNat ≤ 256))) = true ∧
    (([5, 6] : List Byte).all fun fc => decide (fc.toNat = 5 ∨ fc.toNat = 6)) = true ∧
    (([15, 16] : List Byte).all fun fc => decide (fc.toNat = 15 ∨ fc.toNat = 16)) = true ∧
    (([1, 250] : List Byte).all fun b => decide (7 ≤ 259 ∧ 1 ≤ (viewOf [0, 0, 0, 0, 0, 0, b] 6).toNat ∧
      (viewOf [0, 0, 0, 0, 0, 0, b] 6).toNat ≤ 250 ∧ 9 + (viewOf [0, 0, 0, 0, 0, 0, b] 6).toNat ≤ 259)) = true ∧
    (([0, 251] : List Byte).all fun b => decide (¬(7 ≤ 260 ∧ 1 ≤ (viewOf [0, 0, 0, 0, 0, 0, b] 6).toNat ∧
      (viewOf [0, 0, 0, 0, 0, 0, b] 6).toNat ≤ 250 ∧ 9 + (viewOf [0, 0, 0, 0, 0, 0, b] 6).toNat ≤ 260))) = true ∧
    (([0, 7, 14, 17, 127] : List Byte).all fun fc => decide (fc.toNat = 0 ∨ 7 ≤ fc.toNat ∧ fc.toNat ≤ 14 ∨
      17 ≤ fc.toNat ∧ fc.toNat ≤ 127)) = true :=
  ⟨by decide, by decide, by decide, by decide, by decide, by decide, by decide, by decide, by decide, by decide, by decide⟩

theorem witness_PlausibleShapeTestsFrameAlone : plausibleShape (viewOf ex1) 8 = true ∧
    ∀ k < 8, viewOf ex1 k = viewOf (ex1 ++ [0xFF]) k := by decide

/-- The shortest and the longest length, a SHAPE_LEN that completes, and the longest plausible frame (V46). -/
theorem witness_ExpectedLengthBounds : expectedLen 0x80 (viewOf []) 5 = some 5 ∧
    expectedLen 16 (viewOf [0, 16, 0, 0, 0, 0, 250]) 259 = some 259 ∧
    expectedLen 1 (viewOf [0, 1, 1]) 6 = some 6 ∧ expectedLen 6 (viewOf []) 8 = some 8 ∧
    (Opcode.shapeLen ∈ viewOps ∧ ∃ t, exec (Opcode.instr 0x80 .shapeLen) (loaded ex1 0 0) = .next t ∧ t.lastErr = false) ∧
    plausibleShape (viewOf [1, 16, 0, 1, 0, 125, 250]) 259 = true :=
  ⟨by decide, by decide, by decide, by decide, ⟨by decide, _, rfl, rfl⟩, by decide⟩

/-- For each item of R128 with hypotheses a view that meets them: read requests and responses of fc 1 to 4 with
quantities 1, 125, 0 and 126, write-multiple windows, frames one byte short of the next plausible one. -/
theorem witness_ShapeCornerCases :
    (1 ≤ (3 : Byte).toNat ∧ (3 : Byte).toNat ≤ 4 ∧ 8 ≤ 8 ∧ 1 ≤ 256 * (viewOf ex1 4).toNat + (viewOf ex1 5).toNat ∧
      256 * (viewOf ex1 4).toNat + (viewOf ex1 5).toNat ≤ 125) ∧
    (([1, 125] : List Byte).all fun q => decide (1 ≤ (viewOf [0, 4, 4, 0, 0, q] 1).toNat ∧
      (viewOf [0, 4, 4, 0, 0, q] 1).toNat ≤ 4 ∧ 8 < 9 ∧
      1 ≤ 256 * (viewOf [0, 4, 4, 0, 0, q] 4).toNat + (viewOf [0, 4, 4, 0, 0, q] 5).toNat ∧
      256 * (viewOf [0, 4, 4, 0, 0, q] 4).toNat + (viewOf [0, 4, 4, 0, 0, q] 5).toNat ≤ 125)) = true ∧
    (([0, 126] : List Byte).all fun q => decide ((viewOf [0xF7, 1, 3, 0, 0, q] 0).toNat ≤ 247 ∧
      1 ≤ (viewOf [0xF7, 1, 3, 0, 0, q] 1).toNat ∧ (viewOf [0xF7, 1, 3, 0, 0, q] 1).toNat ≤ 4 ∧
      viewOf [0xF7, 1, 3, 0, 0, q] 2 = 3 ∧
      ¬(1 ≤ 256 * (viewOf [0xF7, 1, 3, 0, 0, q] 4).toNat + (viewOf [0xF7, 1, 3, 0, 0, q] 5).toNat ∧
        256 * (viewOf [0xF7, 1, 3, 0, 0, q] 4).toNat + (viewOf [0xF7, 1, 3, 0, 0, q] 5).toNat ≤ 125))) = true ∧
    ((viewOf [0xF7, 4, 2] 0).toNat ≤ 247 ∧ 1 ≤ (viewOf [0xF7, 4, 2] 1).toNat ∧ (viewOf [0xF7, 4, 2] 1).toNat ≤ 4 ∧
      viewOf [0xF7, 4, 2] 2 = 2) ∧
    ((viewOf [0xF7, 0x0F, 0, 0, 0, 0, 250] 0).toNat ≤ 247 ∧ viewOf [0xF7, 0x0F, 0, 0, 0, 0, 250] 1 = 15 ∧
      1 ≤ (viewOf [0xF7, 0x0F, 0, 0, 0, 0, 250] 6).toNat ∧ (viewOf [0xF7, 0x0F, 0, 0, 0, 0, 250] 6).toNat ≤ 250) ∧
    (plausibleShape (viewOf ex1) 8 = true ∧ plausibleShape (viewOf [0xF7, 0x0F, 0, 0, 0, 0, 1]) 8 = true ∧
      plausibleShape (viewOf [1, 4, 2, 0, 0, 125]) 7 = true ∧ plausibleShape (viewOf [1, 4, 2, 0, 0, 126]) 7 = true) ∧
    248 ≤ (viewOf [0xF8] 0).toNat ∧ 5 ≤ 5 := by decide

/-- OFF one above LEN, and OFF equal to LEN. -/
theorem witness_ShapeLenSetsResult : (loaded ex1 9 0).len.toNat < (loaded ex1 9 0).off.toNat ∧
    ((loaded ex1 8 0).off.toNat ≤ (loaded ex1 8 0).len.toNat ∧ lenInBuf (loaded ex1 8 0)) :=
  ⟨by decide, by decide, lenInBuf_of (by decide)⟩

/-- OFF one above LEN; views of one byte and of two. -/
theorem witness_ShapeLenAtSetsResult : (loaded ex1 9 0).len.toNat < (loaded ex1 9 0).off.toNat ∧
    ((loaded ex1 7 0).off.toNat ≤ (loaded ex1 7 0).len.toNat ∧ lenInBuf (loaded ex1 7 0) ∧
      (loaded ex1 7 0).len.toNat - (loaded ex1 7 0).off.toNat < 2) ∧
    ((loaded ex1 6 0).off.toNat ≤ (loaded ex1 6 0).len.toNat ∧ lenInBuf (loaded ex1 6 0) ∧
      2 ≤ (loaded ex1 6 0).len.toNat - (loaded ex1 6 0).off.toNat) :=
  ⟨by decide, ⟨by decide, lenInBuf_of (by decide), by decide⟩, by decide, lenInBuf_of (by decide), by decide⟩

theorem witness_ShapeCheckTestsWindow :
    (loaded ex1 4 5).len.toNat < (loaded ex1 4 5).off.toNat + (loaded ex1 4 5).wlen.toNat ∧
    ((loaded ex1 4 4).off.toNat + (loaded ex1 4 4).wlen.toNat ≤ (loaded ex1 4 4).len.toNat ∧ lenInBuf (loaded ex1 4 4)) ∧
    1 < 2 := ⟨by decide, ⟨by decide, lenInBuf_of (by decide)⟩, by decide⟩

theorem witness_FrameCheckTestsWindow :
    (loaded ex1 4 5).len.toNat < (loaded ex1 4 5).off.toNat + (loaded ex1 4 5).wlen.toNat ∧
    ((loaded ex1 7 1).off.toNat + (loaded ex1 7 1).wlen.toNat ≤ (loaded ex1 7 1).len.toNat ∧ lenInBuf (loaded ex1 7 1) ∧
      (loaded ex1 7 1).wlen.toNat < 2) ∧
    ((loaded ex1 6 2).off.toNat + (loaded ex1 6 2).wlen.toNat ≤ (loaded ex1 6 2).len.toNat ∧ lenInBuf (loaded ex1 6 2) ∧
      2 ≤ (loaded ex1 6 2).wlen.toNat) :=
  ⟨by decide, ⟨by decide, lenInBuf_of (by decide), by decide⟩, by decide, lenInBuf_of (by decide), by decide⟩

theorem witness_FrameCheckIsBothChecks : ∃ t u, lenInBuf (loaded ex1 0 8) ∧
    exec (.shapeCheck 0) (loaded ex1 0 8) = .next t ∧ t.lastErr = false ∧ exec (.crcVerify 0) t = .next u :=
  ⟨_, _, lenInBuf_of (by decide), rfl, rfl, rfl⟩

theorem witness_ErrClearClearsCode : (0x00010021#32).extractLsb' 16 16 ≠ 0#16 ∧ failed.errCode ≠ 0 ∧
    (after (exec (.wrCmd 0x21) failed)).map (fun t => decide (t.errCode.toNat < failed.errCode.toNat)) = some true := by
  decide

/-- Either side of `P_BUF_SIZE`. -/
theorem witness_LenWriteSetsLen : 512 < ((513#32).extractLsb' 0 16).toNat ∧
    ((0xFFFF0200#32).extractLsb' 0 16).toNat ≤ 512 := by decide

/-- A full buffer, and one with room for one byte. -/
theorem witness_PushAppendsByte : full.len.toNat = 512 ∧ ({ full with len := 511 } : State).len.toNat < 512 := by decide

theorem witness_PushSequenceAppendsBytes : ([0x41, 0x42] : List Byte) ≠ [] ∧
    ({ full with len := 510 } : State).len.toNat + ([0x41, 0x42] : List Byte).length ≤ 512 ∧
    ({ full with len := 510, pending := [.access ⟨.write, 0x020, 0x41⟩, .access ⟨.write, 0x020, 0x42⟩] } : State).pending =
      (([0x41, 0x42] : List Byte).map fun b => HostEvent.access ⟨.write, 0x020, b.setWidth 32⟩) ++ [] := by decide

theorem witness_BufWriteStoresWord : 127 < 128 ∧ (0x5FC : Offset).toNat = 0x400 + 4 * 127 ∧
    (507 < 4 * 127 ∨ 4 * 127 + 4 ≤ 507) := by decide

theorem witness_BufReadAnswersWord : 127 < 128 ∧ (0x5FC : Offset).toNat = 0x400 + 4 * 127 := by decide

theorem witness_BufWordReadsBack : ∃ t, exec (.wrBuf 127 0x44332211) full = .next t := ⟨_, rfl⟩

/-- The smallest size of R5, this hardware's, and the largest. -/
theorem witness_RegisterReadValues :
    Config.legalSize 260 ∧ Config.legalSize Config.bufSize ∧ Config.legalSize 3072 ∧ ¬Config.legalSize 262 := by
  unfold Config.legalSize Config.bufSize; decide

theorem witness_IgnoredAccessesChangeNothing : Instr.wrCrcIgnored 5 ∈ [Instr.wrIdIgnored 5, .wrStatusIgnored 5,
      .wrCrcIgnored 5, .wrResultIgnored 5, .wrCfgIgnored 5, .rdCmd, .rdPush] ∧
    (([0x028, 0x3FC, 0x600, 0xFFC] : List Offset).all fun o => decide (o.toNat % 4 = 0 ∧
      ((0x028 ≤ o.toNat ∧ o.toNat ≤ 0x3FC) ∨ (0x400 + 512 ≤ o.toNat ∧ o.toNat ≤ 0xFFC)))) = true := by decide

theorem witness_MisalignedAccessRejected : (0x001#12).extractLsb' 0 2 ≠ 0#2 ∧
    (0x002#12).extractLsb' 0 2 ≠ 0#2 ∧ (0xFFF#12).extractLsb' 0 2 ≠ 0#2 := by decide

/-- One state and operation for each cause. -/
theorem witness_RejectionWritesOnlyStatus : cause State.reset (.wrCmd 0x00010021) 1 ∧ cause State.reset (.wrCmd 0x05) 2 ∧
    cause (loaded ex1 4 5) (.frameCheck 0) 3 ∧ cause (loaded ex1 9 0) (.wrCmd 0x11) 3 ∧
    cause State.reset (.wrLen 513) 4 ∧ cause full (.wrPush 0) 5 ∧ cause State.reset (.misaligned .write 0x005 1) 6 :=
  ⟨.inl ⟨rfl, _, rfl, by decide⟩, .inr (.inl ⟨rfl, _, rfl, by decide, fun op => by cases op <;> decide⟩),
    .inr (.inr (.inl ⟨rfl, .frameCheck, .inl ⟨0, rfl⟩, not_inRange_window (by decide) (by decide)⟩)),
    .inr (.inr (.inl ⟨rfl, .shapeLenAt, .inr ⟨_, rfl, by decide, by decide⟩, not_inRange_view (by decide) (by decide)⟩)),
    .inr (.inr (.inr (.inl ⟨rfl, _, rfl, by decide⟩))), .inr (.inr (.inr (.inr (.inl ⟨rfl, _, rfl, by decide⟩)))),
    .inr (.inr (.inr (.inr (.inr ⟨rfl, _, _, _, rfl⟩))))⟩

/-- A counted operation without a cause, ERR_CLEAR, one with a cause, and one that is not counted. -/
theorem witness_CountedOperationsUpdateStatus :
    ((∃ t, exec (.wrOff 0) failed = .next t) ∧ counted (.wrOff 0) = true ∧ (∀ code, ¬cause failed (.wrOff 0) code) ∧
      ¬runs (.wrOff 0) .errClear) ∧
    ((∃ t, exec (.wrCmd 0x21) failed = .next t) ∧ runs (.wrCmd 0x21) .errClear) ∧
    ((∃ t, exec (.wrPush 0) full = .next t) ∧ cause full (.wrPush 0) 5) ∧
    ((∃ t, exec (.wrCrcIgnored 0) failed = .next t) ∧ counted (.wrCrcIgnored 0) = false) := by
  have hr : ∀ op, ¬runs (.wrOff 0) op := by
    rintro op (⟨d, h⟩ | ⟨w, h, _⟩)
    · cases op <;> cases h
    · cases h
  refine ⟨⟨⟨_, rfl⟩, rfl, ?_, hr _⟩, ⟨⟨_, rfl⟩, .inr ⟨_, rfl, by decide, by decide⟩⟩,
    ⟨⟨_, rfl⟩, .inr (.inr (.inr (.inr (.inl ⟨rfl, _, rfl, by decide⟩))))⟩, ⟨_, rfl⟩, rfl⟩
  rintro code (⟨_, _, h, _⟩ | ⟨_, _, h, _⟩ | ⟨_, op, h, _⟩ | ⟨_, _, h, _⟩ | ⟨_, _, h, _⟩ | ⟨_, _, _, _, h⟩)
  · cases h
  · cases h
  · exact hr op h
  · cases h
  · cases h
  · cases h

theorem witness_OnlyMisalignedAnswersErr : (∃ t, exec (.misaligned .read 0x002 0) State.reset = .next t) ∧
    ∃ t, exec (.wrCmd 0xFF) State.reset = .next t := ⟨⟨_, rfl⟩, ⟨_, rfl⟩⟩

/-- A pending access for each clause. -/
theorem witness_ErrorPriority :
    ((waiting (.access ⟨.write, 0x005, 0xFFFF00FF⟩)).pending = .access ⟨.write, 0x005, 0xFFFF00FF⟩ :: [] ∧
      (0x005 : Offset).toNat % 4 ≠ 0) ∧
    (0xFFFF00FF#32).extractLsb' 16 16 ≠ 0#16 ∧
    ((0x00000005#32).extractLsb' 16 16 = 0#16 ∧ ∀ op : Opcode, (0x00000005#32).extractLsb' 0 8 ≠ op.code) ∧
    ((0x00000003#32).extractLsb' 16 16 = 0#16 ∧ (0x00000003#32).extractLsb' 0 8 = Opcode.code .crcBuf ∧
      ¬inRange { waiting (.access ⟨.write, 0x004, 0x00000003⟩) with wlen := 1 } .crcBuf) ∧
    512 < ((513#32).extractLsb' 0 16).toNat ∧
    ({ waiting (.access ⟨.write, 0x020, 0x55⟩) with len := 512 } : State).len.toNat = 512 :=
  ⟨⟨rfl, by decide⟩, by decide, ⟨by decide, fun op => by cases op <;> decide⟩,
    ⟨by decide, by decide, not_inRange_window (by decide) (by decide)⟩, by decide, by decide⟩

theorem witness_RangeCheckPerCommand : lenInBuf full ∧ inRange { full with off := 511, wlen := 1 } .crcBuf ∧
    ¬inRange { full with off := 512, wlen := 1 } .crcBuf ∧ ¬inRange { full with off := 513 } .shapeLen :=
  ⟨lenInBuf_of (by decide), inRange_of (by decide), not_inRange_window (by decide) (by decide),
    not_inRange_view (by decide) (by decide)⟩

/-- ERR_CLEAR and reset clear a non-zero ERRCODE; a LEN write above `P_BUF_SIZE` is rejected over it. -/
theorem witness_ErrCodeIsSticky :
    (∃ t, step { failed with pending := [.access ⟨.write, 0x004, 0x21⟩] } = .next t ∧ failed.errCode ≠ 0 ∧
      t.errCode ≠ failed.errCode) ∧
    (∃ t, step { failed with pending := [.reset] } = .next t ∧ t.errCode ≠ failed.errCode) ∧
    (cause failed (.wrLen 513) 4 ∧ failed.errCode ≠ 0) :=
  ⟨⟨_, rfl, by decide, by decide⟩, ⟨_, rfl, by decide⟩,
    .inr (.inr (.inr (.inl ⟨rfl, _, rfl, by decide⟩))), by decide⟩

/-- A mismatch (V26) and a view without a length. -/
theorem witness_MismatchIsNoRejection :
    (Opcode.crcVerify ∈ windowOps ++ viewOps ∧ inRange (loaded ex2 0 7) .crcVerify ∧
      ∃ t, exec (Opcode.instr 0 .crcVerify) (loaded ex2 0 7) = .next t) ∧
    (Opcode.shapeLenAt ∈ windowOps ++ viewOps ∧ inRange (loaded ex1 8 0) .shapeLenAt ∧
      ∃ t, exec (Opcode.instr 0 .shapeLenAt) (loaded ex1 8 0) = .next t) :=
  ⟨⟨by decide, inRange_of (by decide), _, rfl⟩, by decide, inRange_of (by decide), _, rfl⟩

theorem witness_AlignedReadChangesNothing : (0x5FC : Offset).toNat % 4 = 0 ∧
    (∃ t, exec (decodeAccess ⟨.read, 0x5FC, 0⟩) failed = .next t) ∧
    ∃ t, exec (decodeAccess ⟨.read, 0x600, 0⟩) failed = .next t :=
  ⟨by decide, next_of (by decide +kernel), next_of (by decide +kernel)⟩

/-- For each element, an operation that changes it from its reset value. -/
theorem witness_OnlyNamedWritersWrite :
    (after (exec (.crcByte 0) State.reset)).map State.crc = some 0x40BF ∧
    (after (exec (.wrPush 1) State.reset)).map (fun t => (t.len, t.buf)) = some (1, [(0, 1)]) ∧
    (after (exec (.wrOff 1) State.reset)).map State.off = some 1 ∧
    (after (exec (.wrWlen 1) State.reset)).map State.wlen = some 1 ∧
    (after (exec (.shapeLen 0x80) (loaded ex1 0 8))).map (fun t => (t.expLen, t.lenValid)) = some (5, true) ∧
    (after (exec (.frameCheck 0) (loaded ex1 0 8))).map (fun t => (t.crcOk, t.shapeOk)) = some (true, true) ∧
    ((after (exec (.wrLen 513) State.reset)).map (fun t => (t.lastErr, t.errCode)) = some (true, 4) ∧
      cause State.reset (.wrLen 513) 4) ∧
    (after (exec (.wrCmd 0x21) failed)).map State.errCode = some 0 :=
  ⟨by decide +kernel, by decide +kernel, by decide +kernel, by decide +kernel, by decide +kernel, by decide +kernel,
    ⟨by decide +kernel, .inr (.inr (.inr (.inl ⟨rfl, _, rfl, by decide⟩)))⟩, by decide +kernel⟩

/-- A byte that a reset keeps, and one that a BUF window write overwrites. -/
theorem witness_WrittenBytesPersist : Memory.read? (loaded ex1 0 0).buf 7 = some 0x0A ∧
    (after (step { loaded ex1 0 0 with pending := [.reset] })).map (fun t => Memory.read? t.buf 7) =
      some (some 0x0A) ∧
    (after (step { loaded ex1 0 0 with pending := [.access ⟨.write, 0x404, 0⟩] })).map
      (fun t => Memory.read? t.buf 7) = some (some 0x00) := by decide +kernel

/-- BUF differs at and above LEN only. -/
theorem witness_CommandsReadOnlyBelowLen :
    (∀ a < (loaded ex1 0 8).len.toNat,
      Memory.read? (Memory.write (loaded ex1 0 8).buf 8 0x55) a = Memory.read? (loaded ex1 0 8).buf a) ∧
    ∃ t, exec (Opcode.instr 0 .frameCheck) (loaded ex1 0 8) = .next t := ⟨by decide, next_of (by decide +kernel)⟩

/-- The invariant in a state that is not the reset state, before a step. -/
theorem witness_StepKeepsInvariant :
    Safety.Inv { loaded ex1 0 8 with expLen := 5, lenValid := true, lastErr := true, errCode := 6,
                                     pending := [.access ⟨.write, 0x5FC, 1⟩] } ∧
    ∃ t, step { loaded ex1 0 8 with expLen := 5, lenValid := true, lastErr := true, errCode := 6,
                                    pending := [.access ⟨.write, 0x5FC, 1⟩] } = .next t :=
  ⟨⟨lenInBuf_of (by decide), Nat.le_of_ble_eq_true rfl, ⟨fun h => (by cases h), fun _ => (by decide)⟩,
    fun _ => (by decide), rfl⟩, next_of (by decide +kernel)⟩

theorem witness_EveryAccessCompletes : lenInBuf { full with pending := [.access ⟨.write, 0x004, 0x13⟩] } ∧
    ({ full with pending := [.access ⟨.write, 0x004, 0x13⟩] } : State).pending = .access ⟨.write, 0x004, 0x13⟩ :: [] :=
  ⟨lenInBuf_of (by decide), rfl⟩

/-- For each form that stops, the first word number, length or end that lies outside BUF; and the last that does not,
in a state that meets the hypotheses of the last clause. -/
theorem witness_StopsExactlyOutsideBuf :
    (exec (.rdBuf 128) State.reset = .fault .bufIndexOutOfRange ∧
      exec (.wrBuf 128 0) State.reset = .fault .bufIndexOutOfRange) ∧
    exec (.wrPush 0) { full with len := 513 } = .fault .bufIndexOutOfRange ∧
    (exec (.crcBuf 0) { full with len := 513, off := 512, wlen := 1 } = .fault .bufIndexOutOfRange ∧
      exec (.wrCmd 0x13) { full with len := 513, wlen := 513 } = .fault .bufIndexOutOfRange) ∧
    (exec (.shapeLen 5) { full with len := 513, off := 513 } = .fault .bufIndexOutOfRange ∧
      exec (.wrCmd 0x11) { full with len := 513 } = .fault .bufIndexOutOfRange) ∧
    ((after (exec (.crcVerify 0) { full with len := 513, off := 511, wlen := 1 })).isSome = true ∧
      (after (exec (.shapeLenAt 0) { full with len := 513, off := 514 })).isSome = true) ∧
    (lenInBuf full ∧ Instr.wellFormed (.rdBuf 127) = true ∧ (after (exec (.rdBuf 127) full)).isSome = true) :=
  ⟨⟨rfl, rfl⟩, rfl, ⟨rfl, rfl⟩, ⟨rfl, rfl⟩, by decide +kernel, lenInBuf_of (by decide), by decide, by decide +kernel⟩

end Sys2Proof.Tests
end

/-! # Proofs of the scope family: where an instruction stops, and the host's address map -/

/-! ## Where an instruction stops (spec/00_scope.md R10, spec/10_state.md R29) -/

namespace Sys2Proof.Machine

open Sys2Proof.Safety

/-- The outcome is the fault of entry 9 where `P` holds, and a next state where it does not; it is never a refusal. -/
def StopsExactlyWhen (P : Prop) (o : Host.Outcome State Fault Refusal) : Prop :=
  (P ∧ o = .fault .bufIndexOutOfRange) ∨ (¬P ∧ ∃ t, o = .next t)

theorem StopsExactlyWhen.ne_refused {P : Prop} {o : Host.Outcome State Fault Refusal} (h : StopsExactlyWhen P o)
    (r : Refusal) : o ≠ .refused r := by
  rcases h with ⟨-, rfl⟩ | ⟨-, t, rfl⟩ <;> simp

theorem StopsExactlyWhen.fault_iff {P : Prop} {o : Host.Outcome State Fault Refusal} (h : StopsExactlyWhen P o)
    (r : Fault) : o = .fault r ↔ r = .bufIndexOutOfRange ∧ P := by
  rcases h with ⟨hP, rfl⟩ | ⟨hP, t, rfl⟩
  · cases r
    simp [hP]
  · simp [hP]

theorem StopsExactlyWhen.congr {P Q : Prop} {o : Host.Outcome State Fault Refusal} (h : StopsExactlyWhen P o)
    (hPQ : Q ↔ P) : StopsExactlyWhen Q o := propext hPQ ▸ h

theorem stopsExactlyWhen_next {P : Prop} (t : State) (h : ¬P) : StopsExactlyWhen P (.next t) := .inr ⟨h, t, rfl⟩

/-! ### The shared operations -/

theorem inBuf_stops (a n size : Nat) (t : State) : StopsExactlyWhen (size < a + n) (inBuf a n (.next t) size) := by
  by_cases h : size < a + n
  · exact .inl ⟨h, inBuf_of_gt _ h⟩
  · exact .inr ⟨h, t, inBuf_of_le _ (Nat.le_of_not_lt h)⟩

/-- The window of the state passes its range check and ends above BUF. -/
def State.windowEndsOutside (s : State) (size : Nat) : Prop :=
  size < s.off.toNat + s.wlen.toNat ∧ s.off.toNat + s.wlen.toNat ≤ s.len.toNat

/-- The view of the state passes its range check and ends above BUF. -/
def State.viewEndsOutside (s : State) (size : Nat) : Prop := size < s.len.toNat ∧ s.off.toNat ≤ s.len.toNat

theorem windowCommand_stops (f : State → State) (s : State) (size : Nat) :
    StopsExactlyWhen (s.windowEndsOutside size) (windowCommand f s size) := by
  by_cases h : s.len.toNat < s.off.toNat + s.wlen.toNat
  · rw [windowCommand_outOfRange f h]
    exact stopsExactlyWhen_next _ fun hw => Nat.not_lt.mpr hw.2 h
  · rw [windowCommand, if_neg (by simpa using h)]
    exact (inBuf_stops s.start s.windowLen size _).congr (and_iff_left (Nat.le_of_not_lt h))

theorem viewCommand_stops (f : State → State) (s : State) (size : Nat) :
    StopsExactlyWhen (s.viewEndsOutside size) (viewCommand f s size) := by
  by_cases h : s.len.toNat < s.off.toNat
  · rw [viewCommand_outOfRange f h]
    exact stopsExactlyWhen_next _ fun hv => Nat.not_lt.mpr hv.2 h
  · have hend : s.start + s.avail = s.len.toNat := Nat.add_sub_cancel' (Nat.le_of_not_lt h)
    rw [viewCommand, if_neg (by simpa using h)]
    refine (inBuf_stops s.start s.avail size _).congr ?_
    rw [hend]
    exact and_iff_left (Nat.le_of_not_lt h)

/-- A PUSH to a full buffer is rejected (R156), so one stops with LEN above `P_BUF_SIZE` only. -/
theorem execWrPush_stops (w : BusWord) (s : State) (size : Nat) :
    StopsExactlyWhen (size < s.len.toNat) (execWrPush w s size) := by
  by_cases h : s.len.toNat = size
  · rw [execWrPush, if_pos h]
    exact stopsExactlyWhen_next _ (by omega)
  · rw [execWrPush, if_neg h]
    exact (inBuf_stops s.len.toNat 1 size _).congr (by omega)

/-- A LEN write reads and writes no byte of BUF (R153). -/
theorem execWrLen_completes (w : BusWord) (s : State) (size : Nat := Config.bufSize) :
    ∃ t, execWrLen w s size = .next t := by
  unfold execWrLen
  split <;> exact ⟨_, rfl⟩

theorem execWrBuf_stops (k : Nat) (w : BusWord) (s : State) : StopsExactlyWhen (128 ≤ k) (execWrBuf k w s) :=
  (inBuf_stops (4 * k) 4 Config.bufSize _).congr (by rw [Config.bufSize_eq]; omega)

theorem execRdBuf_stops (k : Nat) (s : State) : StopsExactlyWhen (128 ≤ k) (execRdBuf k s) :=
  (inBuf_stops (4 * k) 4 Config.bufSize _).congr (by rw [Config.bufSize_eq]; omega)

/-! ### Commands -/

/-- The command reads a window or a view that passes its range check and ends above BUF. -/
def commandEndsOutside (s : State) (op : Opcode) : Prop :=
  (op ∈ windowOps ∧ s.windowEndsOutside 512) ∨ (op ∈ viewOps ∧ s.viewEndsOutside 512)

theorem exec_windowOp {op : Opcode} (h : op ∈ windowOps) (d : Byte) (s : State) :
    exec (op.instr d) s = windowCommand (fun t => commandEffect d t op) s := by
  simp only [windowOps, List.mem_cons, List.not_mem_nil, or_false] at h
  rcases h with rfl | rfl | rfl | rfl <;> rfl

theorem exec_viewOp {op : Opcode} (h : op ∈ viewOps) (d : Byte) (s : State) :
    exec (op.instr d) s = viewCommand (fun t => commandEffect d t op) s := by
  simp only [viewOps, List.mem_cons, List.not_mem_nil, or_false] at h
  rcases h with rfl | rfl <;> rfl

/-- A command without a range check always completes. -/
theorem exec_uncheckedOp {op : Opcode} (hw : op ∉ windowOps) (hv : op ∉ viewOps) (d : Byte) (s : State) :
    exec (op.instr d) s = complete (commandEffect d s op) := by
  cases op with
  | nop | crcInit | crcByte | bufClear | errClear => rfl
  | crcBuf | crcVerify | shapeCheck | frameCheck => exact absurd (by decide) hw
  | shapeLen | shapeLenAt => exact absurd (by decide) hv

theorem not_mem_viewOps_of_mem_windowOps {op : Opcode} (h : op ∈ windowOps) : op ∉ viewOps := by
  cases op <;> revert h <;> decide

theorem exec_command_stops (op : Opcode) (d : Byte) (s : State) :
    StopsExactlyWhen (commandEndsOutside s op) (exec (op.instr d) s) := by
  by_cases hw : op ∈ windowOps
  · rw [exec_windowOp hw]
    have hv := not_mem_viewOps_of_mem_windowOps hw
    exact (windowCommand_stops _ s 512).congr (by simp [commandEndsOutside, hw, hv])
  by_cases hv : op ∈ viewOps
  · rw [exec_viewOp hv]
    exact (viewCommand_stops _ s 512).congr (by simp [commandEndsOutside, hw, hv])
  · rw [exec_uncheckedOp hw hv]
    exact stopsExactlyWhen_next _ (by simp [commandEndsOutside, hw, hv])

/-! ### All instructions -/

/-- The instruction would use an index outside BUF: as a BUF window access, as a PUSH, or by the command it runs. -/
def usesIndexOutside (i : Instr) (s : State) : Prop :=
  (∃ k, 128 ≤ k ∧ (i = .rdBuf k ∨ ∃ w, i = .wrBuf k w)) ∨
  (512 < s.len.toNat ∧ ∃ w, i = .wrPush w) ∨
  ∃ op, runs i op ∧ commandEndsOutside s op

theorem usesIndexOutside_instr (op : Opcode) (d : Byte) (s : State) :
    usesIndexOutside (op.instr d) s ↔ commandEndsOutside s op := by
  have hrd (k) : op.instr d ≠ .rdBuf k := by cases op <;> simp [Opcode.instr]
  have hwr (k w) : op.instr d ≠ .wrBuf k w := by cases op <;> simp [Opcode.instr]
  have hpush (w) : op.instr d ≠ .wrPush w := by cases op <;> simp [Opcode.instr]
  simp [usesIndexOutside, runs_instr_iff, hrd, hwr, hpush]

/-- An access other than a CMD write uses an index outside BUF as a BUF window access or a PUSH only. -/
theorem usesIndexOutside_of_bus {i : Instr} {a : Access} (s : State) (h : encode i = .bus a)
    (hc : ∀ w, i ≠ .wrCmd w) : usesIndexOutside i s ↔
      (∃ k, 128 ≤ k ∧ (i = .rdBuf k ∨ ∃ w, i = .wrBuf k w)) ∨ (512 < s.len.toNat ∧ ∃ w, i = .wrPush w) := by
  have hcmd (op : Opcode) (d) : i ≠ op.instr d := by
    rintro rfl
    cases op <;> cases h
  simp [usesIndexOutside, not_runs hcmd hc]

/-- A CMD write uses an index outside BUF exactly where the command it runs does. -/
theorem usesIndexOutside_wrCmd (w : BusWord) (s : State) :
    usesIndexOutside (.wrCmd w) s ↔ ∃ op, runs (.wrCmd w) op ∧ commandEndsOutside s op := by
  simp [usesIndexOutside]

theorem runs_wrCmd_iff {w : BusWord} {op : Opcode} :
    runs (.wrCmd w) op ↔ rsvdField w = 0 ∧ opField w = op.code := by
  constructor
  · rintro (⟨d, h⟩ | ⟨w', h, h0, h1⟩)
    · cases op <;> simp [Opcode.instr] at h
    · cases h; exact ⟨h0, h1⟩
  · rintro ⟨h0, h1⟩
    exact .inr ⟨w, rfl, h0, h1⟩

theorem exec_wrCmd_stops (w : BusWord) (s : State) :
    StopsExactlyWhen (usesIndexOutside (.wrCmd w) s) (exec (.wrCmd w) s) := by
  simp only [usesIndexOutside_wrCmd, runs_wrCmd_iff]
  rcases execWrCmd_cases w s with ⟨h0, e⟩ | ⟨-, h1, e⟩ | ⟨op, h0, h1, -⟩
  · rw [show exec (.wrCmd w) s = _ from e]
    exact stopsExactlyWhen_next _ fun ⟨_, hr, _⟩ => h0 hr.1
  · rw [show exec (.wrCmd w) s = _ from e]
    refine stopsExactlyWhen_next _ fun ⟨op, hr, _⟩ => ?_
    simp [hr.2] at h1
  · rw [exec_wrCmd_of_code s h0 h1]
    refine (exec_command_stops op (dataField w) s).congr ⟨?_, fun h => ⟨op, ⟨h0, h1⟩, h⟩⟩
    rintro ⟨op', ⟨-, h2⟩, h⟩
    exact Opcode.code_inj (h2.symm.trans h1) ▸ h

/-- Every instruction ends in a next state, but for the fault where it would use an index outside BUF. -/
theorem exec_stops (i : Instr) (s : State) : StopsExactlyWhen (usesIndexOutside i s) (exec i s) := by
  have hcmd (op : Opcode) (d : Byte) : StopsExactlyWhen (usesIndexOutside (op.instr d) s) (exec (op.instr d) s) :=
    (exec_command_stops op d s).congr (usesIndexOutside_instr op d s)
  cases i with
  | nop d => exact hcmd .nop d
  | crcInit d => exact hcmd .crcInit d
  | crcByte d => exact hcmd .crcByte d
  | crcBuf d => exact hcmd .crcBuf d
  | crcVerify d => exact hcmd .crcVerify d
  | shapeLen d => exact hcmd .shapeLen d
  | shapeLenAt d => exact hcmd .shapeLenAt d
  | shapeCheck d => exact hcmd .shapeCheck d
  | frameCheck d => exact hcmd .frameCheck d
  | bufClear d => exact hcmd .bufClear d
  | errClear d => exact hcmd .errClear d
  | wrCmd w => exact exec_wrCmd_stops w s
  | wrPush w =>
    exact (execWrPush_stops w s 512).congr ((usesIndexOutside_of_bus s rfl (by simp)).trans (by simp))
  | wrBuf k w => exact (execWrBuf_stops k w s).congr ((usesIndexOutside_of_bus s rfl (by simp)).trans (by simp))
  | rdBuf k => exact (execRdBuf_stops k s).congr ((usesIndexOutside_of_bus s rfl (by simp)).trans (by simp))
  | wrLen w => exact .inr ⟨(usesIndexOutside_of_bus s rfl (by simp)).not.mpr (by simp), execWrLen_completes w s⟩
  | _ => exact stopsExactlyWhen_next _ ((usesIndexOutside_of_bus s rfl (by simp)).not.mpr (by simp))

/-- In a state with LEN <= `P_BUF_SIZE` (R29) no well-formed instruction uses an index outside BUF. -/
theorem not_usesIndexOutside {i : Instr} {s : State} (hl : lenInBuf s) (hi : i.wellFormed = true) :
    ¬usesIndexOutside i s := by
  have hlen : s.len.toNat ≤ 512 := hl
  rintro (⟨k, hk, rfl | ⟨w, rfl⟩⟩ | ⟨h, -⟩ | ⟨op, -, ⟨-, hlo, hhi⟩ | ⟨-, h, -⟩⟩)
  · exact absurd (windowWord_iff.mp hi) (by omega)
  · exact absurd (windowWord_iff.mp hi) (by omega)
  all_goals omega

/-- Settles O60: each instruction's outcome is known from `exec_stops`, and R29 rules the fault out. -/
theorem stopsExactlyOutsideBuf : Obligations.StopsExactlyOutsideBuf := by
  refine ⟨fun i s => (exec_stops i s).ne_refused, fun i s r => ?_, fun i s r hl hi hf => ?_⟩
  · rw [(exec_stops i s).fault_iff]
    simp only [usesIndexOutside, commandEndsOutside, State.windowEndsOutside, State.viewEndsOutside, and_or_left,
      exists_or, and_left_comm]
  · exact not_usesIndexOutside hl hi (((exec_stops i s).fault_iff r).mp hf).2

end Sys2Proof.Machine

/-! ## The host's address map (spec/00_scope.md R6, spec/20_memory.md R50, spec/60_exceptions.md R182) -/

namespace Sys2Proof

theorem selectOffset_hostAddress (pBase : Nat) (o : Offset) : selectOffset pBase (hostAddress pBase o) = some o := by
  have ho : o.toNat < Config.spaceSize := o.isLt
  rw [selectOffset, hostAddress, if_pos (by omega), Nat.add_sub_cancel_left, BitVec.ofNat_toNat, BitVec.setWidth_eq]

theorem selectOffset_outside {pBase addr : Nat} (h : addr < pBase ∨ pBase + 4096 ≤ addr) :
    selectOffset pBase addr = none := by
  rw [selectOffset, if_neg (by rw [Config.spaceSize_eq]; omega)]

/-- Settles O10, from the two directions of the address decode. -/
theorem baseAddressSelectsOffset : Obligations.BaseAddressSelectsOffset :=
  fun pBase => ⟨selectOffset_hostAddress pBase, fun _ => selectOffset_outside⟩

end Sys2Proof

/-! # Proofs of the state family: the invariant, the writers of each element, and the bytes of BUF -/

/-! ## Expected lengths are legal values of EXPLEN (spec/41_shape.md R121 to R126, R130; spec/10_state.md R39) -/

namespace Sys2Proof.Machine

open Sys2Proof.Safety

/-- The lengths R39 allows in EXPLEN. -/
def frameLength (n : Nat) : Prop := 5 ≤ n ∧ n ≤ 259

theorem exceptionLen_frameLength {avail n : Nat} (h : exceptionLen avail = some n) : frameLength n := by
  unfold exceptionLen at h
  split at h
  · cases h; exact ⟨by decide, by decide⟩
  · cases h

theorem readLen_frameLength {W : Nat → Byte} {avail n : Nat} (h : readLen W avail = some n) : frameLength n := by
  unfold readLen at h
  split at h
  · cases h; exact ⟨by decide, by decide⟩
  split at h
  · rename_i hbc
    simp only [Config.bcMin, Config.bcMax] at hbc
    cases h
    simp only [frameLength, Config.readOverhead]
    omega
  · cases h

theorem singleWriteLen_frameLength {avail n : Nat} (h : singleWriteLen avail = some n) : frameLength n := by
  unfold singleWriteLen at h
  split at h
  · cases h; exact ⟨by decide, by decide⟩
  · cases h

theorem multiWriteLen_frameLength {W : Nat → Byte} {avail n : Nat} (h : multiWriteLen W avail = some n) :
    frameLength n := by
  unfold multiWriteLen at h
  split at h
  · rename_i hbc
    simp only [Config.bcMin, Config.bcMax] at hbc
    cases h
    simp only [frameLength, Config.writeOverhead]
    omega
  split at h
  · cases h; exact ⟨by decide, by decide⟩
  · cases h

theorem expectedLen_frameLength {fc : Byte} {W : Nat → Byte} {avail n : Nat} (h : expectedLen fc W avail = some n) :
    frameLength n := by
  unfold expectedLen at h
  split at h
  · exact exceptionLen_frameLength h
  split at h
  · exact readLen_frameLength h
  split at h
  · exact singleWriteLen_frameLength h
  split at h
  · exact multiWriteLen_frameLength h
  · cases h

theorem expectedLenAt_frameLength {W : Nat → Byte} {avail n : Nat} (h : expectedLenAt W avail = some n) :
    frameLength n := by
  unfold expectedLenAt at h
  split at h
  · cases h
  · exact expectedLen_frameLength h

theorem legalResult_setLength {s : State} {r : Option Nat} (hr : ∀ n, r = some n → frameLength n) :
    legalResult (s.setLength r) := by
  cases r with
  | none => exact ⟨fun _ => rfl, by simp⟩
  | some n =>
    obtain ⟨hlo, hhi⟩ := hr n rfl
    refine ⟨by simp, fun _ => ?_⟩
    have hn : n % 65536 = n := Nat.mod_eq_of_lt (by omega)
    simpa [hn] using And.intro hlo hhi

/-! ## The fields a command's effect writes (spec/10_state.md R20) -/

/-- The commands whose effect changes CRC; the other writers follow. -/
theorem crc_writer {op : Opcode} {d : Byte} {s : State} (h : (commandEffect d s op).crc ≠ s.crc) :
    op ∈ [Opcode.crcInit, .crcByte, .crcBuf, .crcVerify, .frameCheck] := by
  cases op with
  | crcInit | crcByte | crcBuf | crcVerify | frameCheck => decide
  | nop | shapeLen | shapeLenAt | shapeCheck | bufClear | errClear => exact absurd (by simp [commandEffect]) h

theorem crcOk_writer {op : Opcode} {d : Byte} {s : State} (h : (commandEffect d s op).crcOk ≠ s.crcOk) :
    op ∈ [Opcode.crcVerify, .frameCheck] := by
  cases op with
  | crcVerify | frameCheck => decide
  | nop | crcInit | crcByte | crcBuf | shapeLen | shapeLenAt | shapeCheck | bufClear | errClear =>
    exact absurd (by simp [commandEffect]) h

theorem shapeOk_writer {op : Opcode} {d : Byte} {s : State} (h : (commandEffect d s op).shapeOk ≠ s.shapeOk) :
    op ∈ [Opcode.shapeCheck, .frameCheck] := by
  cases op with
  | shapeCheck | frameCheck => decide
  | nop | crcInit | crcByte | crcBuf | crcVerify | shapeLen | shapeLenAt | bufClear | errClear =>
    exact absurd (by simp [commandEffect]) h

theorem len_writer {op : Opcode} {d : Byte} {s : State} (h : (commandEffect d s op).len ≠ s.len) :
    op = .bufClear := by
  by_contra hop
  exact h (by rw [commandEffect_len, if_neg hop])

theorem errCode_writer {op : Opcode} {d : Byte} {s : State} (h : (commandEffect d s op).errCode ≠ s.errCode) :
    op = .errClear := by
  by_contra hop
  exact h (by rw [commandEffect_errCode, if_neg hop])

/-- (LEN_VALID, EXPLEN) are written by the shape-length commands only (R26). -/
theorem commandEffect_result {op : Opcode} (h : op ∉ viewOps) (d : Byte) (s : State) :
    (commandEffect d s op).expLen = s.expLen ∧ (commandEffect d s op).lenValid = s.lenValid := by
  cases op with
  | shapeLen | shapeLenAt => exact absurd (by decide) h
  | nop | crcInit | crcByte | crcBuf | crcVerify | shapeCheck | frameCheck | bufClear | errClear =>
    simp [commandEffect]

theorem result_writer {op : Opcode} {d : Byte} {s : State}
    (h : (commandEffect d s op).expLen ≠ s.expLen ∨ (commandEffect d s op).lenValid ≠ s.lenValid) : op ∈ viewOps := by
  by_contra hv
  obtain ⟨hl, hb⟩ := commandEffect_result hv d s
  exact h.elim (absurd hl) (absurd hb)

theorem runs_of_mem {i : Instr} {op : Opcode} {ops : List Opcode} (h : op ∈ ops) (hi : runs i op) :
    ∃ o ∈ ops, runs i o :=
  ⟨op, h, hi⟩

theorem commandEffect_legalResult {s : State} (h : legalResult s) (d : Byte) (op : Opcode) :
    legalResult (commandEffect d s op) := by
  by_cases hv : op ∈ viewOps
  · simp only [viewOps, List.mem_cons, List.not_mem_nil, or_false] at hv
    rcases hv with rfl | rfl
    · exact legalResult_setLength fun _ => expectedLen_frameLength
    · exact legalResult_setLength fun _ => expectedLenAt_frameLength
  · obtain ⟨hl, hb⟩ := commandEffect_result hv d s
    rwa [legalResult, hl, hb]

/-! ## Every rejection has a cause (spec/60_exceptions.md R170) -/

theorem cause_of_not_inRange {i : Instr} {op : Opcode} {s : State} (hi : runs i op) (hr : ¬inRange s op) :
    cause s i 3 :=
  .inr (.inr (.inl ⟨rfl, op, hi, hr⟩))

/-- A command run by `i` that ends with LAST_ERR set failed its range check. -/
theorem command_cause {i : Instr} {op : Opcode} {d : Byte} {s t : State} (hi : runs i op)
    (h : exec (op.instr d) s = .next t) (he : t.lastErr = true) : ∃ code, cause s i code := by
  rcases exec_command_next h with ⟨hr, -⟩ | ⟨-, rfl⟩
  · exact ⟨3, cause_of_not_inRange hi hr⟩
  · simp at he

theorem wrCmd_cause {w : BusWord} {s t : State} (h : exec (.wrCmd w) s = .next t) (he : t.lastErr = true) :
    ∃ code, cause s (.wrCmd w) code := by
  rcases exec_wrCmd_next h with ⟨h0, -⟩ | ⟨h0, h1, -⟩ | ⟨op, h0, h1, h2⟩
  · exact ⟨1, .inl ⟨rfl, w, rfl, h0⟩⟩
  · have hop (op : Opcode) : opField w ≠ op.code := fun hc => by simp [hc] at h1
    exact ⟨2, .inr (.inl ⟨rfl, w, rfl, h0, hop⟩)⟩
  · exact command_cause (runs_wrCmd_iff.mpr ⟨h0, h1⟩) h2 he

theorem wrLen_cause {w : BusWord} {s t : State} (h : exec (.wrLen w) s = .next t) (he : t.lastErr = true) :
    ∃ code, cause s (.wrLen w) code := by
  by_cases hl : Config.bufSize < (lowHalf w).toNat
  · exact ⟨4, .inr (.inr (.inr (.inl ⟨rfl, w, rfl, hl⟩)))⟩
  · rw [show exec (.wrLen w) s = complete { s with len := lowHalf w } from if_neg hl] at h
    cases h
    cases he

theorem wrPush_cause {w : BusWord} {s t : State} (h : exec (.wrPush w) s = .next t) (he : t.lastErr = true) :
    ∃ code, cause s (.wrPush w) code := by
  by_cases hl : s.len.toNat = Config.bufSize
  · exact ⟨5, .inr (.inr (.inr (.inr (.inl ⟨rfl, w, rfl, hl⟩))))⟩
  · change execWrPush w s = _ at h
    rw [execWrPush, if_neg hl, inBuf_eq_next] at h
    obtain ⟨-, h⟩ := h
    cases h
    cases he

/-- A counted operation that ends with LAST_ERR set was rejected for a cause of R170 (R172). -/
theorem cause_of_lastErr {i : Instr} {s t : State} (h : exec i s = .next t) (hc : counted i = true)
    (he : t.lastErr = true) : ∃ code, cause s i code := by
  have hcmd (op : Opcode) (d : Byte) (hi : i = op.instr d) : ∃ code, cause s i code :=
    command_cause (.inl ⟨d, hi⟩) (hi ▸ h) he
  cases i with
  | nop d => exact hcmd .nop d rfl
  | crcInit d => exact hcmd .crcInit d rfl
  | crcByte d => exact hcmd .crcByte d rfl
  | crcBuf d => exact hcmd .crcBuf d rfl
  | crcVerify d => exact hcmd .crcVerify d rfl
  | shapeLen d => exact hcmd .shapeLen d rfl
  | shapeLenAt d => exact hcmd .shapeLenAt d rfl
  | shapeCheck d => exact hcmd .shapeCheck d rfl
  | frameCheck d => exact hcmd .frameCheck d rfl
  | bufClear d => exact hcmd .bufClear d rfl
  | errClear d => exact hcmd .errClear d rfl
  | wrCmd w => exact wrCmd_cause h he
  | wrLen w => exact wrLen_cause h he
  | wrPush w => exact wrPush_cause h he
  | misaligned d o w => exact ⟨6, .inr (.inr (.inr (.inr (.inr ⟨rfl, d, o, w, rfl⟩))))⟩
  | wrOff w | wrWlen w => cases h; cases he
  | wrBuf k w =>
    obtain ⟨-, h⟩ := inBuf_eq_next.mp h
    cases h
    cases he
  | _ => cases hc

/-! ## One step (spec/20_memory.md R51, spec/70_reset_and_hazards.md R190, R191) -/

/-- The four ways a step answers a next state: nothing pending, an access, a reset, or a reset during an access. -/
theorem step_next {s t : State} (h : step s = .next t) :
    t = s ∨
    (∃ a rest, s.pending = .access a :: rest ∧ exec (decodeAccess a) { s with pending := rest } = .next t) ∨
    (∃ rest, s.pending = .reset :: rest ∧ t = { s with pending := rest }.warmReset) ∨
    (∃ a rest, s.pending = .resetDuring a :: rest ∧ t = { s with pending := rest }.abandon a) := by
  cases hp : s.pending with
  | nil =>
    simp only [step, receive, receiveBy, hp] at h
    cases h
    exact .inl rfl
  | cons e rest =>
    cases e with
    | access a => exact .inr (.inl ⟨a, rest, rfl, (step_access hp).symm.trans h⟩)
    | reset =>
      simp only [step, receive, receiveBy, hp] at h
      cases h
      exact .inr (.inr (.inl ⟨rest, rfl, rfl⟩))
    | resetDuring a =>
      simp only [step, receive, receiveBy, hp] at h
      cases h
      exact .inr (.inr (.inr ⟨a, rest, rfl, rfl⟩))

/-! ## Which bytes of BUF an instruction writes (spec/10_state.md R28, spec/70_reset_and_hazards.md R191) -/

/-- `writtenBytes` of an instruction, which says what a torn access was writing, is also what a whole one writes. -/
theorem exec_buf {i : Instr} {s t : State} (h : exec i s = .next t) :
    t.buf = s.buf ∨ t.buf = Memory.writeBytes s.buf (writtenBytes s i).1 (writtenBytes s i).2 := by
  cases exec_ends h with
  | rejected | mis | len | off | wlen | ans => subst t; exact .inl rfl
  | cmd => subst t; exact .inl (by simp)
  | push w hi hl => subst t i; exact .inr (by simp [writtenBytes, hl, Memory.writeBytes])
  | buf => subst t i; exact .inr rfl

/-- Index `x` is among those the instruction writes, as `writtenBytes` gives them. -/
def writesIndex (s : State) (i : Instr) (x : Nat) : Prop :=
  (writtenBytes s i).1 ≤ x ∧ x < (writtenBytes s i).1 + (writtenBytes s i).2.length

theorem writesIndex_iff {s : State} {i : Instr} {x : Nat} : writesIndex s i x ↔
    (∃ w, i = .wrPush w ∧ s.len.toNat < Config.bufSize ∧ x = s.len.toNat) ∨
    ∃ k w, i = .wrBuf k w ∧ 4 * k ≤ x ∧ x < 4 * k + 4 := by
  cases i with
  | wrPush w =>
    by_cases hl : s.len.toNat < Config.bufSize
    · have hx : s.len.toNat ≤ x ∧ x < s.len.toNat + 1 ↔ x = s.len.toNat := by omega
      simpa [writesIndex, writtenBytes, hl] using hx
    · simp [writesIndex, writtenBytes, hl]
  | wrBuf k w => simp [writesIndex, writtenBytes, windowBytes]
  | _ => simp [writesIndex, writtenBytes]

/-- Among host accesses, a PUSH writes its index and a BUF window write its word (R42, R156, R157). -/
theorem writesIndex_decodeAccess {s : State} {a : Access} {x : Nat} (h : writesIndex s (decodeAccess a) x) :
    a.dir = .write ∧ (a.offset = 0x020 ∧ x = s.len.toNat ∨
      ∃ k, a.offset.toNat = 0x400 + 4 * k ∧ 4 * k ≤ x ∧ x < 4 * k + 4) := by
  obtain ⟨hpush, hbuf⟩ := decode_push_buf (a := a)
  rcases writesIndex_iff.mp h with ⟨w, hi, -, hx⟩ | ⟨k, w, hi, hx⟩
  · obtain ⟨hd, ho⟩ := hpush w hi
    exact ⟨hd, .inl ⟨ho, hx⟩⟩
  · obtain ⟨hd, -, ho⟩ := hbuf k w hi
    exact ⟨hd, .inr ⟨k, ho, hx⟩⟩

/-- An instruction leaves every byte alone whose index it does not write. -/
theorem exec_read?_buf {i : Instr} {s t : State} (h : exec i s = .next t) (x : Nat) :
    Memory.read? t.buf x = Memory.read? s.buf x ∨ writesIndex s i x := by
  rcases exec_buf h with hb | hb
  · exact .inl (by rw [hb])
  · by_cases hx : writesIndex s i x
    · exact .inr hx
    · rw [hb, Memory.read?_writeBytes]
      exact .inl (if_neg hx)

/-- So does an access cut short by reset (R191). -/
theorem abandon_read?_buf (s : State) (a : Access) (x : Nat) :
    Memory.read? (s.abandon a).buf x = Memory.read? s.buf x ∨ writesIndex s (decodeAccess a) x := by
  rcases State.read?_tear s (writtenBytes s (decodeAccess a)).1 x (writtenBytes s (decodeAccess a)).2 with
    h | ⟨k, hx, b, hk, -⟩
  · exact .inl h
  · have hlt := (List.getElem?_eq_some_iff.mp hk).1
    exact .inr ⟨by omega, by omega⟩

/-! ## The invariant (spec/10_state.md R29, R34, R39; spec/60_exceptions.md R171, R172) -/

theorem inv_warmReset {s : State} (h : Memory.wf s.buf = true) : Inv s.warmReset where
  lenInBuf := Nat.zero_le _
  legalErrCode := Nat.zero_le _
  legalResult := ⟨fun _ => rfl, nofun⟩
  recordedErr := nofun
  bufWf := h

/-- The invariant does not speak of the model's own fields. -/
theorem inv_bookkeeping {s : State} (h : Inv s) (n : Nat) (es : List HostEvent) (rs : List Response) :
    Inv { s with draws := n, pending := es, responses := rs } :=
  ⟨h.lenInBuf, h.legalErrCode, h.legalResult, h.recordedErr, h.bufWf⟩

/-- A recorded rejection keeps the invariant: the codes of R170 are 1 to 6. -/
theorem inv_rejected {s : State} (h : Inv s) {c : BitVec 4} (hc : 1 ≤ c.toNat ∧ c.toNat ≤ 6) (rs : List Response) :
    Inv { s with lastErr := true, errCode := if s.errCode = 0 then c else s.errCode, responses := rs } where
  lenInBuf := h.lenInBuf
  legalErrCode := by
    rw [legalErrCode]
    split
    · exact hc.2
    · exact h.legalErrCode
  legalResult := h.legalResult
  recordedErr _ := by
    split
    · rintro (rfl : c = 0)
      exact absurd hc.1 (by decide)
    · assumption
  bufWf := h.bufWf

/-- An accepted operation keeps the invariant where it leaves LEN and BUF legal. -/
theorem inv_accepted {s : State} (h : Inv s) {m : Memory} {l : Half} (hl : l.toNat ≤ Config.bufSize)
    (hm : Memory.wf m = true) (o n : Half) (rs : List Response) :
    Inv { s with buf := m, len := l, off := o, wlen := n, lastErr := false, responses := rs } :=
  ⟨hl, h.legalErrCode, h.legalResult, nofun, hm⟩

theorem inv_commandEnd {s : State} (h : Inv s) (d : Byte) (op : Opcode) :
    Inv ((commandEffect d s op).counted.respond 0 .ok) where
  lenInBuf := by
    rw [lenInBuf, State.respond_len, State.counted_len, commandEffect_len]
    split
    · exact Nat.zero_le _
    · exact h.lenInBuf
  legalErrCode := by
    rw [legalErrCode, State.respond_errCode, State.counted_errCode, commandEffect_errCode]
    split
    · exact Nat.zero_le _
    · exact h.legalErrCode
  legalResult := commandEffect_legalResult h.legalResult d op
  recordedErr := nofun
  bufWf := by simpa using h.bufWf

theorem exec_keeps_inv {i : Instr} {s t : State} (hs : Inv s) (h : exec i s = .next t) : Inv t := by
  cases exec_ends h with
  | rejected c hc => subst t; exact inv_rejected hs hc _
  | mis => subst t; exact inv_rejected hs (by decide) _
  | cmd op d => subst t; exact inv_commandEnd hs d op
  | len w v hi hv => subst t; exact inv_accepted hs hv hs.bufWf s.off s.wlen _
  | off w v => subst t; exact inv_accepted hs hs.lenInBuf hs.bufWf v s.wlen _
  | wlen w v => subst t; exact inv_accepted hs hs.lenInBuf hs.bufWf s.off v _
  | push w hi hl =>
    subst t
    have hlen : (s.len + 1).toNat ≤ Config.bufSize := by
      rw [BitVec.toNat_add]
      exact (Nat.mod_le _ _).trans hl
    exact inv_accepted hs hlen (Memory.wf_write _ hs.bufWf hl) s.off s.wlen _
  | buf k w hi hk => subst t; exact inv_accepted hs hs.lenInBuf (Memory.wf_writeBytes hs.bufWf hk) s.off s.wlen _
  | ans v n => subst t; exact inv_bookkeeping hs n s.pending _

/-- What an access writes lies in BUF. -/
theorem writtenBytes_inBuf {s : State} (hl : lenInBuf s) (a : Access) :
    (writtenBytes s (decodeAccess a)).1 + (writtenBytes s (decodeAccess a)).2.length ≤ Config.bufSize := by
  obtain ⟨-, hbuf⟩ := decode_push_buf (a := a)
  have hl : s.len.toNat ≤ Config.bufSize := hl
  cases hi : decodeAccess a with
  | wrPush w =>
    rw [writtenBytes]
    split
    · assumption
    · exact hl
  | wrBuf k w =>
    obtain ⟨-, hk, -⟩ := hbuf k w hi
    rw [Config.bufSize_eq]
    simp only [writtenBytes, windowBytes, List.length_cons, List.length_nil]
    omega
  | _ => exact Nat.zero_le _

theorem abandon_keeps_inv {s : State} (hs : Inv s) (a : Access) : Inv (s.abandon a) :=
  inv_warmReset (Memory.wf_tear hs.bufWf (writtenBytes_inBuf hs.lenInBuf a))

/-! ## The obligations -/

/-- Settles O58: an access by `exec_keeps_inv`; a reset makes every register legal, and BUF stays canonical even where
the reset tears a write. -/
theorem stepKeepsInvariant : Obligations.StepKeepsInvariant := by
  intro s t hs h
  have hp (rest) : Inv { s with pending := rest } := inv_bookkeeping hs s.draws rest s.responses
  rcases step_next h with rfl | ⟨a, rest, -, h⟩ | ⟨rest, -, rfl⟩ | ⟨a, rest, -, rfl⟩
  · exact hs
  · exact exec_keeps_inv (hp rest) h
  · exact inv_warmReset hs.bufWf
  · exact abandon_keeps_inv (hp rest) a

/-- Settles O55: an access, whole or torn, changes the indices it writes only, and a reset changes none. -/
theorem writtenBytesPersist : Obligations.WrittenBytesPersist := by
  intro s t x b h hx
  rcases step_next h with rfl | ⟨a, rest, hp, h⟩ | ⟨rest, -, rfl⟩ | ⟨a, rest, hp, rfl⟩
  · exact .inl hx
  · exact (exec_read?_buf h x).imp (fun he => he.trans hx)
      fun hw => ⟨a, rest, .inl hp, writesIndex_decodeAccess hw⟩
  · exact .inl hx
  · exact (abandon_read?_buf { s with pending := rest } a x).imp (fun he => he.trans hx)
      fun hw => ⟨a, rest, .inr hp, writesIndex_decodeAccess hw⟩

/-- Settles O54, by the ways an instruction ends; a rejection has a cause by `cause_of_lastErr`. -/
theorem onlyNamedWritersWrite : Obligations.OnlyNamedWritersWrite := by
  intro i s t h
  cases exec_ends h with
  | rejected c hc hcnt _ _ ht =>
    have hcause := cause_of_lastErr h hcnt (by rw [ht]; rfl)
    subst t
    simp [rejected, hcnt, hcause]
  | mis d o w hi ht =>
    have hcause := cause_of_lastErr h (by rw [hi]; rfl) (by rw [ht])
    subst t i
    simp [counted, hcause]
  | cmd op d _ hi hcnt _ ht =>
    subst t
    refine ⟨fun hne => ?_, fun hne => .inr (.inr (len_writer hne ▸ hi)), absurd (commandEffect_off d s op),
      absurd (commandEffect_wlen d s op), fun hne => ?_, fun hne => ?_, fun hne => ?_, fun _ => hcnt,
      fun hne => .inr (errCode_writer hne ▸ hi), absurd (commandEffect_buf d s op), commandEffect_pending d s op⟩
    · simpa using runs_of_mem (crc_writer hne) hi
    · simpa [viewOps] using runs_of_mem (result_writer hne) hi
    · simpa using runs_of_mem (crcOk_writer hne) hi
    · simpa using runs_of_mem (shapeOk_writer hne) hi
  | len | off | wlen | push | buf => subst t i; simp [counted]
  | ans => subst t; simp

end Sys2Proof.Machine

/-! # Proofs of the memory family: steps and misaligned accesses, reads of BUF, and what a command reads of it -/

/-! ## Pending and misaligned accesses (spec/20_memory.md R51, R52, R61; spec/30_encoding.md R75) -/

namespace Sys2Proof

/-- The command words that decode, and their instructions (R75). -/
theorem decodeCmd_eq_ok {w : BusWord} {i : Instr} :
    decodeCmd w = .ok i ↔ rsvdField w = 0 ∧ ∃ op : Opcode, opField w = op.code ∧ i = op.instr (dataField w) := by
  constructor
  · intro h
    unfold decodeCmd at h
    split at h
    · cases h
    · split at h
      · cases h
        exact ⟨not_not.mp ‹_›, _, opcodeAt_eq_some.mp ‹_›, rfl⟩
      · cases h
  · rintro ⟨h0, op, h1, rfl⟩
    simp [decodeCmd, h0, h1]

/-- An offset is word-aligned exactly where its two low bits are 0 (R52). -/
theorem aligned_iff_extractLsb' {o : Offset} : Offset.aligned o = true ↔ o.extractLsb' 0 2 = 0 := by
  rw [Offset.aligned, beq_iff_eq, ← BitVec.toNat_inj]
  simp

/-- No word-aligned read is one of the counted operations of R172. -/
theorem counted_decodeAccess_read {o : Offset} (h : Offset.aligned o = true) (w : BusWord) :
    Safety.counted (decodeAccess ⟨.read, o, w⟩) = false := by
  cases hr : regAt o with
  | some r =>
    rw [regAt_eq_some.mp hr, decodeAccess_reg]
    cases r <;> rfl
  | none => cases hw : windowWordAt o <;> simp [decodeAccess, h, hr, hw, Safety.counted]

end Sys2Proof

namespace Sys2Proof.Machine

open Sys2Proof.Safety

/-- A CMD write of a word that decodes runs the instruction it decodes to (R75). -/
theorem exec_wrCmd_of_decodeCmd {w : BusWord} {i : Instr} (h : decodeCmd w = .ok i) (s : State) :
    exec (.wrCmd w) s = exec i s := by
  obtain ⟨h0, op, h1, rfl⟩ := decodeCmd_eq_ok.mp h
  exact exec_wrCmd_of_code s h0 h1

theorem step_idle {s : State} (h : s.pending = []) : step s = .next s := by
  simp [step, receive, receiveBy, h]

/-- Settles O3: the access step is `step_access`, and the model at `P_BUF_SIZE` = 512 is this hardware's. -/
theorem stepRunsNextAccess : Obligations.StepRunsNextAccess := by
  refine ⟨fun _ _ _ => step_access, fun s w i rest hp hw => ?_, fun _ => step_idle,
    congrFun stepSized_bufSize, execSized_bufSize⟩
  calc step s = exec (decodeAccess (writeTo .cmd w)) { s with pending := rest } := step_access hp
    _ = exec (.wrCmd w) { s with pending := rest } := by rw [writeTo, decodeAccess_reg]; rfl
    _ = exec i { s with pending := rest } := exec_wrCmd_of_decodeCmd hw _

/-- Settles O45: the decoder looks at `offset[1:0]` before all else, and MISALIGNED is a rejection with E_BUS. -/
theorem misalignedAccessRejected : Obligations.MisalignedAccessRejected := by
  refine ⟨fun ⟨d, o, w⟩ h => ?_, fun _ _ _ _ => rfl⟩
  exact decodeAccess_misaligned d w (Bool.eq_false_iff.mpr (mt aligned_iff_extractLsb'.mp h))

/-! ## Reads (spec/20_memory.md R54, R58; spec/42_control.md R159) -/

/-- An operation that is not counted (R172) changes the model's own draws and answers only. -/
theorem exec_uncounted {i : Instr} {s t : State} (hi : counted i = false) (h : exec i s = .next t) :
    t = { s with draws := t.draws, responses := t.responses } := by
  cases exec_ends h with
  | ans v n _ _ _ ht => subst t; rfl
  | rejected _ _ hcnt => simp [hi] at hcnt
  | cmd _ _ _ _ hcnt => simp [hi] at hcnt
  | mis | len | off | wlen | push | buf => subst i; cases hi

/-- Settles O53: word-aligned reads are not counted operations. -/
theorem alignedReadChangesNothing : Obligations.AlignedReadChangesNothing := fun _ w _ _ ho =>
  exec_uncounted (counted_decodeAccess_read (beq_iff_eq.mpr ho) w)

/-- The bytes of a window word, put together again, are the word (R54). -/
theorem windowValue_of_windowBytes {W : Nat → Byte} {w : BusWord} (h : ∀ i < 4, (windowBytes w)[i]? = some (W i)) :
    windowValue W = w := by
  have hW (i : Nat) (b : Byte) (hi : i < 4) (hb : (windowBytes w)[i]? = some b) : W i = b :=
    Option.some.inj ((h i hi).symm.trans hb)
  rw [windowValue, bytes_eq_ofNat, hW 0 _ (by decide) rfl, hW 1 _ (by decide) rfl, hW 2 _ (by decide) rfl,
    hW 3 _ (by decide) rfl]
  apply BitVec.eq_of_toNat_eq
  have := w.isLt
  simp only [BitVec.toNat_ofNat, BitVec.extractLsb'_toNat, Nat.shiftRight_eq_div_pow]
  omega

/-- Settles O42: after the write every byte of the word is a written byte, so the read takes no free value. -/
theorem bufWordReadsBack : Obligations.BufWordReadsBack := by
  intro k w s t h
  obtain ⟨hk, ht⟩ := inBuf_eq_next.mp h
  have hbuf : t.buf = Memory.writeBytes s.buf (4 * k) (windowBytes w) := by cases ht; rfl
  have hview : ∀ i < 4, (windowBytes w)[i]? = some (t.view (4 * k) i) := by
    intro i hi
    obtain ⟨b, hb⟩ : ∃ b, (windowBytes w)[i]? = some b := ⟨_, List.getElem?_eq_getElem hi⟩
    have hread : Memory.read? t.buf (4 * k + i) = some b := by
      rw [hbuf, Memory.read?_writeBytes, if_pos ⟨by omega, Nat.add_lt_add_left hi _⟩, Nat.add_sub_cancel_left, hb]
    rw [hb, State.view_of_read hread]
  refine ⟨t.draws + 4, (inBuf_of_le _ hk).trans ?_⟩
  rw [windowValue_of_windowBytes hview]
  rfl

/-! ## Commands read BUF below LEN only (spec/20_memory.md R50, R66; spec/41_shape.md R120) -/

/-- `m` holds the same bytes below LEN as BUF does; at and above LEN it may hold any. -/
def State.agreesBelowLen (s : State) (m : Memory) : Prop :=
  ∀ a < s.len.toNat, Memory.read? m a = Memory.read? s.buf a

/-- A shape-length command ends the same with another BUF, where it finds the same length. -/
theorem setLength_withBuf (s : State) (m : Memory) (n : Nat) {r r' : Option Nat} (h : r' = r) :
    (State.setLength { s with buf := m } r').drew n = { (s.setLength r).drew n with buf := m } := by
  subst h
  cases r' <;> rfl

section
variable {s : State} {m : Memory} (hm : s.agreesBelowLen m)
include hm

/-- A window or view that ends within LEN is the same in both, whatever has been drawn before. -/
theorem view_withBuf {n : Nat} (hn : s.off.toNat + n ≤ s.len.toNat) (x : Nat) :
    ∀ k < n, State.view { s with buf := m, draws := x } s.off.toNat k =
      State.view { s with draws := x } s.off.toNat k :=
  State.view_congr (s := { s with draws := x }) fun k _ => hm _ (by omega)

theorem computeCrc_withBuf {n : Nat} (hn : s.off.toNat + n ≤ s.len.toNat) :
    State.computeCrc { s with buf := m } n = { s.computeCrc n with buf := m } := by
  have hc : crcCompute (State.view { s with buf := m } s.off.toNat) n = crcCompute (s.view s.off.toNat) n :=
    crcCompute_congr (view_withBuf hm hn s.draws)
  simp [State.computeCrc, State.drew, hc]

theorem checkShape_withBuf (hw : s.off.toNat + s.wlen.toNat ≤ s.len.toNat) :
    State.checkShape { s with buf := m } = { s.checkShape with buf := m } := by
  have hp : plausibleShape (State.view { s with buf := m } s.off.toNat) s.wlen.toNat =
      plausibleShape (s.view s.off.toNat) s.wlen.toNat :=
    plausibleShape_congr (view_withBuf hm hw s.draws)
  simp [State.checkShape, State.setShapeOk, State.drew, hp]

theorem verifyWindow_withBuf (hw : s.off.toNat + s.wlen.toNat ≤ s.len.toNat) :
    State.verifyWindow { s with buf := m } = { s.verifyWindow with buf := m } := by
  by_cases h2 : s.wlen.toNat < 2
  · rw [State.verifyWindow_of_lt h2, State.verifyWindow_of_lt (s := { s with buf := m }) h2]
  · have h2 : 2 ≤ s.wlen.toNat := Nat.le_of_not_lt h2
    rw [State.verifyWindow_of_ge h2, State.verifyWindow_of_ge (s := { s with buf := m }) h2]
    have hc := crcCompute_congr (view_withBuf hm (n := s.wlen.toNat - 2) (by omega) s.draws)
    have hv := crcVerify_congr (view_withBuf hm hw (s.draws + (s.wlen.toNat - 2)))
    simp [hc, hv]

/-- The effect of a command whose range check passes is the same on both (R175). -/
theorem commandEffect_withBuf {op : Opcode} (hr : inRange s op) (d : Byte) :
    commandEffect d { s with buf := m } op = { commandEffect d s op with buf := m } := by
  obtain ⟨hw, hv⟩ := hr
  have hview (ho : s.off.toNat ≤ s.len.toNat) := view_withBuf hm (n := s.avail) (Nat.add_sub_cancel' ho).le s.draws
  cases op with
  | nop | crcInit | crcByte | bufClear | errClear => rfl
  | crcBuf => exact computeCrc_withBuf hm (hw (by decide))
  | crcVerify => exact verifyWindow_withBuf hm (hw (by decide))
  | shapeCheck => exact checkShape_withBuf hm (hw (by decide))
  | frameCheck =>
    have hw := hw (by decide)
    rw [commandEffect, checkShape_withBuf hm hw]
    exact verifyWindow_withBuf (s := s.checkShape) hm hw
  | shapeLen => exact setLength_withBuf s m _ (expectedLen_congr d (hview (hv (by decide))))
  | shapeLenAt => exact setLength_withBuf s m _ (expectedLenAt_congr (hview (hv (by decide))))

end

/-- Whether a command answers, and whether its range check passes, does not depend on BUF. -/
theorem exec_command_withBuf_next {op : Opcode} {d : Byte} {s t : State} (h : exec (op.instr d) s = .next t)
    (m : Memory) : ∃ t', exec (op.instr d) { s with buf := m } = .next t' := by
  rcases exec_command_stops op d s with ⟨-, hf⟩ | ⟨hn, -⟩
  · rw [h] at hf
    cases hf
  · rcases exec_command_stops op d { s with buf := m } with ⟨hs, -⟩ | ⟨-, hx⟩
    · exact absurd hs hn
    · exact hx

/-- Settles O56: a rejection does not look at BUF, and an effect reads it within LEN (`commandEffect_withBuf`). -/
theorem commandsReadOnlyBelowLen : Obligations.CommandsReadOnlyBelowLen := by
  intro op d s t m hm h
  obtain ⟨t', h'⟩ := exec_command_withBuf_next h m
  rcases exec_command_next h with ⟨hr, rfl⟩ | ⟨hr, rfl⟩
  · exact ⟨rfl, exec_command_outOfRange d (s := { s with buf := m }) hr⟩
  · refine ⟨commandEffect_buf d s op, ?_⟩
    rcases exec_command_next h' with ⟨hr', -⟩ | ⟨-, rfl⟩
    · exact absurd hr hr'
    · rw [h', commandEffect_withBuf hm hr]
      rfl

end Sys2Proof.Machine

/-! # Proofs of the encoding family: both formats read both ways, the CMD write, and the pseudo-instructions -/

/-! ## Decoding what was encoded (spec/30_encoding.md R70, R71, R73, R74) -/

namespace Sys2Proof.Laws

/-- The round trip of every instruction, at every legal buffer size (R5). -/
theorem roundTrip : ∀ i : Instr, RoundTrip.Statement i
  | .nop d => RoundTrip.nop d
  | .crcInit d => RoundTrip.crcInit d
  | .crcByte d => RoundTrip.crcByte d
  | .crcBuf d => RoundTrip.crcBuf d
  | .crcVerify d => RoundTrip.crcVerify d
  | .shapeLen d => RoundTrip.shapeLen d
  | .shapeLenAt d => RoundTrip.shapeLenAt d
  | .shapeCheck d => RoundTrip.shapeCheck d
  | .frameCheck d => RoundTrip.frameCheck d
  | .bufClear d => RoundTrip.bufClear d
  | .errClear d => RoundTrip.errClear d
  | .wrCmd w => RoundTrip.wrCmd w
  | .wrLen w => RoundTrip.wrLen w
  | .wrOff w => RoundTrip.wrOff w
  | .wrWlen w => RoundTrip.wrWlen w
  | .wrPush w => RoundTrip.wrPush w
  | .wrBuf k w => RoundTrip.wrBuf k w
  | .wrIdIgnored w => RoundTrip.wrIdIgnored w
  | .wrStatusIgnored w => RoundTrip.wrStatusIgnored w
  | .wrCrcIgnored w => RoundTrip.wrCrcIgnored w
  | .wrResultIgnored w => RoundTrip.wrResultIgnored w
  | .wrCfgIgnored w => RoundTrip.wrCfgIgnored w
  | .rdId => RoundTrip.rdId
  | .rdCmd => RoundTrip.rdCmd
  | .rdStatus => RoundTrip.rdStatus
  | .rdCrc => RoundTrip.rdCrc
  | .rdLen => RoundTrip.rdLen
  | .rdOff => RoundTrip.rdOff
  | .rdWlen => RoundTrip.rdWlen
  | .rdResult => RoundTrip.rdResult
  | .rdPush => RoundTrip.rdPush
  | .rdCfg => RoundTrip.rdCfg
  | .rdBuf k => RoundTrip.rdBuf k
  | .rsvdAccess d o w => RoundTrip.rsvdAccess d o w
  | .misaligned d o w => RoundTrip.misaligned d o w

/-- Settles O4: the round trip at this hardware's size, which is a legal one. -/
theorem decodeEncodeRoundTrip : Obligations.DecodeEncodeRoundTrip := fun i =>
  roundTrip i Config.bufSize Config.bufSize_legal

end Sys2Proof.Laws

/-! ## Encoding what was decoded (spec/30_encoding.md R70, R74; spec/20_memory.md R51) -/

namespace Sys2Proof

@[simp] theorem encode_instr (op : Opcode) (d : Byte) : encode (op.instr d) = .cmd (cmdWord op d) := by
  cases op <;> rfl

@[simp] theorem encode_readInstr (r : Reg) : encode r.readInstr = .bus (readFrom r) := by cases r <;> rfl

@[simp] theorem encode_writeInstr (r : Reg) (w : BusWord) : encode (r.writeInstr w) = .bus (writeTo r w) := by
  cases r <;> rfl

@[simp] theorem wellFormed_instr (op : Opcode) (d : Byte) (size : Nat) : (op.instr d).wellFormed size = true := by
  cases op <;> rfl

@[simp] theorem wellFormed_readInstr (r : Reg) (size : Nat) : r.readInstr.wellFormed size = true := by
  cases r <;> rfl

@[simp] theorem wellFormed_writeInstr (r : Reg) (w : BusWord) (size : Nat) :
    (r.writeInstr w).wellFormed size = true := by
  cases r <;> rfl

/-- Every aligned offset below 0x028 is that of a named register (10_state.md section 4). -/
theorem exists_reg_of_lt {o : Offset} (ha : Offset.aligned o = true) (h : o.toNat < 0x028) : ∃ r : Reg, o = r.offset := by
  have hreg : ∀ k < 10, (regAt (BitVec.ofNat 12 (4 * k))).isSome = true := by decide
  have ho : o.toNat % 4 = 0 := beq_iff_eq.mp ha
  obtain ⟨r, hr⟩ := Option.isSome_iff_exists.mp (hreg (o.toNat / 4) (by omega))
  rw [Nat.mul_div_cancel' (Nat.dvd_of_mod_eq_zero ho), BitVec.ofNat_toNat, BitVec.setWidth_eq] at hr
  exact ⟨r, regAt_eq_some.mp hr⟩

/-- The map of R74 leaves no offset out: each is a named register's, a BUF window word's, reserved, or misaligned. -/
theorem offset_cases {size : Nat} (hs : Config.legalSize size) (o : Offset) :
    (∃ r : Reg, o = r.offset) ∨ (∃ k, windowWord k size = true ∧ o = windowOffset k) ∨
      Offset.reserved o size = true ∨ Offset.aligned o = false := by
  by_cases ha : Offset.aligned o = true
  · have ho : o.toNat % 4 = 0 := beq_iff_eq.mp ha
    by_cases hlow : o.toNat < 0x028
    · exact .inl (exists_reg_of_lt ha hlow)
    by_cases hwin : 0x400 ≤ o.toNat ∧ o.toNat < 0x400 + size
    · have hk : windowWord ((o.toNat - 0x400) / 4) size = true := (windowWord_size_iff hs).mpr (by omega)
      refine .inr (.inl ⟨_, hk, BitVec.eq_of_toNat_eq ?_⟩)
      rw [windowOffset_toNat hs hk]
      omega
    · exact .inr (.inr (.inl (reserved_size_iff.mpr ⟨ha, by omega⟩)))
  · exact .inr (.inr (.inr (Bool.eq_false_iff.mpr ha)))

/-- The encoding of `i` is `c`, but for the wdata of a READ, which the block ignores (R51). -/
def encodesBackTo (i : Instr) (c : Code) : Prop :=
  encode i = c ∨ ∃ o w, c = .bus ⟨.read, o, w⟩ ∧ encode i = .bus ⟨.read, o, 0⟩

theorem decodeAccess_encodesBackTo {size : Nat} (hs : Config.legalSize size) (a : Access) :
    (decodeAccess a size).wellFormed size = true ∧ encodesBackTo (decodeAccess a size) (.bus a) := by
  obtain ⟨d, o, w⟩ := a
  rcases offset_cases hs o with ⟨r, rfl⟩ | ⟨k, hk, rfl⟩ | h | h
  · rw [decodeAccess_reg d r w size]
    cases d with
    | read => exact ⟨wellFormed_readInstr r size, .inr ⟨_, w, rfl, encode_readInstr r⟩⟩
    | write => exact ⟨wellFormed_writeInstr r w size, .inl (encode_writeInstr r w)⟩
  · rw [decodeAccess_window d w hs hk]
    cases d with
    | read => exact ⟨hk, .inr ⟨_, w, rfl, rfl⟩⟩
    | write => exact ⟨hk, .inl rfl⟩
  · rw [decodeAccess_reserved d w h]
    exact ⟨h, .inl rfl⟩
  · rw [decodeAccess_misaligned d w h size]
    exact ⟨by rw [Instr.wellFormed, h]; rfl, .inl rfl⟩

/-- Settles O5: a command word that decodes is put together from its fields; an access by the four kinds of offset. -/
theorem decodedCodeEncodesBack : Obligations.DecodedCodeEncodesBack := by
  intro c i h
  cases c with
  | cmd w =>
    obtain ⟨h0, op, h1, rfl⟩ := decodeCmd_eq_ok.mp h
    refine ⟨wellFormed_instr op _ _, .inl ?_⟩
    rw [encode_instr, cmdWord_fields w op h0 h1]
  | bus a =>
    cases h
    exact decodeAccess_encodesBackTo Config.bufSize_legal a

/-! ## The map of accesses (spec/30_encoding.md R74) -/

/-- The row of a named register: its READ and its WRITE. -/
theorem decodeAccess_register_row (r : Reg) (w x : BusWord) :
    decodeAccess ⟨.read, r.offset, x⟩ = r.readInstr ∧ decodeAccess ⟨.write, r.offset, w⟩ = r.writeInstr w :=
  ⟨decodeAccess_reg .read r x, decodeAccess_reg .write r w⟩

/-- Settles O7: one clause for each of the four kinds of offset. -/
theorem alignedAccessMap : Obligations.AlignedAccessMap := by
  refine ⟨fun w x => ?_, fun o w k hk ho => ?_, fun d o w ho hlow hwin => ?_, fun d o w ho => ?_⟩
  · have row (r : Reg) := decodeAccess_register_row r w x
    exact ⟨row .id, row .cmd, row .status, row .crc, row .len, row .off, row .wlen, row .result, row .push, row .cfg⟩
  · obtain rfl := eq_windowOffset hk ho
    have hk := windowWord_iff.mpr hk
    exact ⟨decodeAccess_window .read w Config.bufSize_legal hk, decodeAccess_window .write w Config.bufSize_legal hk⟩
  · have hlt := o.isLt
    exact decodeAccess_reserved d w (reserved_iff.mpr ⟨beq_iff_eq.mpr ho, by omega⟩)
  · exact decodeAccess_misaligned d w (beq_eq_false_iff_ne.mpr ho)

/-- Settles O6, by computing the decoders on the words. -/
theorem specWordsDecode : Obligations.SpecWordsDecode :=
  ⟨rfl, rfl, rfl, rfl, rfl, rfl, rfl, rfl, rfl, rfl, rfl, rfl, rfl⟩

/-! ## The pseudo-instructions (spec/30_encoding.md R79) -/

/-- Settles O11: each expansion is the table's own row, and CRCB issues one CRC_BYTE for each byte. -/
theorem pseudoInstructionsExpand : Obligations.PseudoInstructionsExpand :=
  ⟨fun _ _ _ => rfl, fun _ _ => rfl, fun _ => List.map_eq_flatMap, fun _ => rfl, fun _ _ => rfl, rfl, rfl, rfl⟩

/-! ## The values of OP (spec/30_encoding.md R73) -/

/-- The OP values of the table of R73, in its order. -/
def opcodeValues : List Byte := [0x00, 0x01, 0x02, 0x03, 0x04, 0x10, 0x11, 0x12, 0x13, 0x20, 0x21]

theorem mem_opcodeValues_iff (x : Byte) : x ∈ opcodeValues ↔ ∃ op : Opcode, op.code = x := by
  constructor
  · have hmap : ∀ y ∈ opcodeValues, (opcodeAt y).isSome = true := by decide
    intro hx
    obtain ⟨op, hop⟩ := Option.isSome_iff_exists.mp (hmap x hx)
    exact ⟨op, (opcodeAt_eq_some.mp hop).symm⟩
  · rintro ⟨op, rfl⟩
    cases op <;> decide

theorem opcodeAt_eq_none_iff {x : Byte} : opcodeAt x = none ↔ ¬∃ op : Opcode, op.code = x := by
  simp only [Option.eq_none_iff_forall_ne_some, ne_eq, opcodeAt_eq_some, eq_comm (a := x), not_exists]

end Sys2Proof

/-! ## The CMD write (spec/30_encoding.md R75, R76; spec/60_exceptions.md R172, R173) -/

namespace Sys2Proof.Machine

open Sys2Proof.Safety

theorem exec_wrCmd_of_rsvd {w : BusWord} (h : rsvdField w ≠ 0) (s : State) :
    exec (.wrCmd w) s = .next (rejected s 1) := if_pos h

theorem exec_wrCmd_of_undefined {w : BusWord} (h0 : rsvdField w = 0) (h : opcodeAt (opField w) = none) (s : State) :
    exec (.wrCmd w) s = .next (rejected s 2) := by
  change execWrCmd w s = _
  rw [execWrCmd, if_neg (not_not.mpr h0), h]
  rfl

/-- Every command but CRC_BYTE and SHAPE_LEN ignores DATA (R73, R76). -/
theorem exec_command_ignores_data {op : Opcode} (h : op.usesData = false) (d d' : Byte) (s : State) :
    exec (op.instr d) s = exec (op.instr d') s := by
  cases op with
  | crcByte | shapeLen => cases h
  | nop | crcInit | crcBuf | crcVerify | shapeLenAt | shapeCheck | frameCheck | bufClear | errClear => rfl

theorem usesData_eq_false {op : Opcode} (hc : op ≠ .crcByte) (hs : op ≠ .shapeLen) : op.usesData = false := by
  cases op with
  | crcByte => exact absurd rfl hc
  | shapeLen => exact absurd rfl hs
  | _ => rfl

/-- Settles O8: the three ends of a CMD write, in the order of R75. -/
theorem commandWordCheckOrder : Obligations.CommandWordCheckOrder := by
  refine ⟨fun w s => ⟨fun h => exec_wrCmd_of_rsvd h s, fun h0 h => ?_, fun op h0 h => exec_wrCmd_of_code s h0 h⟩,
    fun op d d' s hc hs => exec_command_ignores_data (usesData_eq_false hc hs) d d' s, mem_opcodeValues_iff⟩
  exact exec_wrCmd_of_undefined h0 (opcodeAt_eq_none_iff.mpr (mt (mem_opcodeValues_iff _).mpr h)) s

/-- Settles O9: the word runs its command, which completes with its effect when the range check passes. -/
theorem definedCommandWriteCompletes : Obligations.DefinedCommandWriteCompletes := by
  intro w op s h0 h hl hr
  have hexec : exec (.wrCmd w) s = complete (commandEffect (dataField w) s op) :=
    (exec_wrCmd_of_code s h0 h).trans (exec_command_inRange (dataField w) hr hl)
  refine ⟨_, hexec, rfl, ?_⟩
  rw [State.respond_responses, State.counted_responses, commandEffect_responses]

end Sys2Proof.Machine

/-! # Proofs of the CRC family: the primitives, the laws of R108, and the four CRC commands -/

/-! ## The primitives (spec/40_crc.md R100 to R102) -/

namespace Sys2Proof.Machine

open Sys2Proof.Safety

theorem crcBits_eq_iterate (n : Nat) (c : Half) : crcBits n c = crcBit^[n] c := by
  induction n generalizing c with
  | zero => rfl
  | succ n ih => rw [crcBits_succ, ih, Function.iterate_succ_apply]

/-- Settles O12: the model's recursion is the iterate of `crcBit`. -/
theorem crcStepIsEightShifts : Obligations.CrcStepIsEightShifts := fun c b =>
  crcBits_eq_iterate 8 (c ^^^ b.setWidth 16)

theorem crcCompute_eq_foldl (W : Nat → Byte) (n : Nat) :
    crcCompute W n = ((List.range n).map W).foldl crcStep 0xFFFF := by
  induction n with
  | zero => rfl
  | succ n ih => rw [crcCompute_succ, ih, List.range_succ, List.map_append, List.foldl_append]; rfl

/-- Settles O13, by induction on the number of bytes: the last byte is folded last. -/
theorem crcComputeFoldsFromSeed : Obligations.CrcComputeFoldsFromSeed := crcCompute_eq_foldl

theorem crcVerify_of_lt (W : Nat → Byte) {n : Nat} (h : n < 2) : crcVerify W n = false := if_pos h

/-- A frame of `n` bytes and a trailer verifies exactly where the trailer is their CRC, low byte first. -/
theorem crcVerify_trailer_iff (W : Nat → Byte) (n : Nat) : crcVerify W (n + 2) = true ↔
    W n = (crcCompute W n).extractLsb' 0 8 ∧ W (n + 1) = (crcCompute W n).extractLsb' 8 8 := by
  have h : crcVerify W (n + 2) = (W n == crcLo (crcCompute W n) && W (n + 1) == crcHi (crcCompute W n)) :=
    if_neg (by omega)
  rw [h, Bool.and_eq_true, beq_iff_eq, beq_iff_eq, crcLo, crcHi]

/-- A frame that verifies has a trailer. -/
theorem exists_payload_of_crcVerify {W : Nat → Byte} {n : Nat} (h : crcVerify W n = true) : ∃ m, n = m + 2 := by
  refine ⟨n - 2, (Nat.sub_add_cancel (Nat.le_of_not_lt fun hn => ?_)).symm⟩
  rw [crcVerify_of_lt W hn] at h
  cases h

/-- Settles O14: a frame of two bytes or more is a payload and its trailer. -/
theorem crcVerifyComparesTrailer : Obligations.CrcVerifyComparesTrailer := by
  refine fun W n => ⟨crcVerify_of_lt W, fun h => ?_⟩
  obtain ⟨m, rfl⟩ := Nat.exists_eq_add_of_le' h
  exact crcVerify_trailer_iff W m

/-- Settles O15, by computing the primitives on the vectors. -/
theorem crcKnownAnswers : Obligations.CrcKnownAnswers := by
  unfold Obligations.CrcKnownAnswers
  decide +kernel

/-! ## Residue and single-bit flips (spec/40_crc.md R108 items 3 and 4) -/

/-- A step whose byte cancels the value gives 0. -/
theorem crcStep_setWidth_self (b : Byte) : crcStep (b.setWidth 16) b = 0 := by
  rw [crcStep, BitVec.xor_self]
  rfl

/-- Folding a value's own bytes into it, low byte first, leaves 0. -/
theorem crcStep_own_bytes (c : Half) : crcStep (crcStep c (c.extractLsb' 0 8)) (c.extractLsb' 8 8) = 0 := by
  rw [crcStep_lo, crcStep_setWidth_self]

/-- Settles O22: the trailer of a frame that verifies is the payload's CRC, which its own bytes fold to 0. -/
theorem verifiedFrameResidueIsZero : Obligations.VerifiedFrameResidueIsZero := by
  intro W n h
  obtain ⟨m, rfl⟩ := exists_payload_of_crcVerify h
  obtain ⟨hlo, hhi⟩ := (crcVerify_trailer_iff W m).mp h
  rw [crcCompute_succ, crcCompute_succ, hlo, hhi, crcStep_own_bytes]

/-- A step is linear and only 0 steps to 0, so two steps agree only where the bytes make up for the values. -/
theorem xor_eq_of_crcStep_eq {c c' : Half} {x y : Byte} (h : crcStep c x = crcStep c' y) :
    c ^^^ c' = (x ^^^ y).setWidth 16 := by
  have h0 : crcStep (c ^^^ c') (x ^^^ y) = 0 := by
    rw [crcStep_xor, h]
    exact BitVec.xor_self
  exact crcStep_eq_zero h0

theorem crcStep_left_injective {c c' : Half} {b : Byte} (h : crcStep c b = crcStep c' b) : c = c' := by
  have hx := xor_eq_of_crcStep_eq h
  rw [BitVec.xor_self, BitVec.setWidth_zero] at hx
  exact BitVec.xor_eq_zero_iff.mp hx

theorem crcStep_right_injective {c : Half} {x y : Byte} (h : crcStep c x = crcStep c y) : x = y := by
  have hx := xor_eq_of_crcStep_eq h
  rw [BitVec.xor_self] at hx
  have hlow : (0 : Half).setWidth 8 = ((x ^^^ y).setWidth 16).setWidth 8 := congrArg _ hx
  rw [BitVec.setWidth_setWidth_of_le _ (by decide), BitVec.setWidth_eq] at hlow
  exact BitVec.xor_eq_zero_iff.mp hlow.symm

/-- Two views that differ in one byte have different CRCs from that byte on. -/
theorem crcCompute_ne_of_one_byte {W W' : Nat → Byte} {i n : Nat} (hi : W' i ≠ W i) (hk : ∀ k, k ≠ i → W' k = W k)
    (hn : i < n) : crcCompute W' n ≠ crcCompute W n := by
  induction n, hn using Nat.le_induction with
  | base =>
    rw [crcCompute_succ, crcCompute_succ, crcCompute_congr fun k hlt => hk k (Nat.ne_of_lt hlt)]
    exact mt crcStep_right_injective hi
  | succ n hn ih =>
    rw [crcCompute_succ, crcCompute_succ, hk n (Nat.ne_of_gt hn)]
    exact mt crcStep_left_injective ih

theorem xor_one_shiftLeft_ne (b : Byte) {j : Nat} (hj : j < 8) : b ^^^ (1#8 <<< j) ≠ b := by
  have hbit : ∀ j < 8, 1#8 <<< j ≠ 0 := by decide
  simpa using hbit j hj

/-- Settles O23: both frames would have residue 0, but a changed byte changes the residue. -/
theorem singleBitFlipDetected : Obligations.SingleBitFlipDetected := by
  intro W W' n i j h hi hj hflip hk
  have hne : W' i ≠ W i := hflip ▸ xor_one_shiftLeft_ne (W i) hj
  refine Bool.eq_false_iff.mpr fun h' => crcCompute_ne_of_one_byte hne hk hi ?_
  rw [verifiedFrameResidueIsZero W' n h', verifiedFrameResidueIsZero W n h]

/-! ## CRC_INIT and CRC_BYTE (spec/40_crc.md R104, R105) -/

/-- Settles O16: the encoding by `issues_code`, the effect by the definition. -/
theorem crcInitSetsSeed : Obligations.CrcInitSetsSeed := ⟨issues_code .crcInit, fun _ _ => rfl⟩

/-- Settles O17, as O16, with the two examples computed. -/
theorem crcByteFoldsData : Obligations.CrcByteFoldsData :=
  ⟨issues_code .crcByte, by decide, by decide, fun _ _ => rfl⟩

/-! ## CRC_BUF and CRC_VERIFY (spec/40_crc.md R106, R107; R108 item 2) -/

/-- The range check of a window command (R175). -/
theorem inRange_windowOp_iff {op : Opcode} (h : op ∈ windowOps) {s : State} :
    inRange s op ↔ s.off.toNat + s.wlen.toNat ≤ s.len.toNat :=
  ⟨fun hr => hr.1 h, fun hw => ⟨fun _ => hw, fun hv => absurd hv (not_mem_viewOps_of_mem_windowOps h)⟩⟩

theorem exec_windowOp_inRange {op : Opcode} (h : op ∈ windowOps) (d : Byte) {s : State}
    (hw : s.off.toNat + s.wlen.toNat ≤ s.len.toNat) (hl : lenInBuf s) :
    exec (op.instr d) s = complete (commandEffect d s op) :=
  exec_command_inRange d ((inRange_windowOp_iff h).mpr hw) hl

theorem exec_windowOp_outOfRange {op : Opcode} (h : op ∈ windowOps) (d : Byte) {s : State}
    (hw : s.len.toNat < s.off.toNat + s.wlen.toNat) : exec (op.instr d) s = .next (rejected s 3) :=
  exec_command_outOfRange d fun hr => Nat.not_le.mpr hw ((inRange_windowOp_iff h).mp hr)

/-- Settles O18: what CRC_BUF sees of BUF is a reading of its window; the example is one of the known answers. -/
theorem crcBufComputesWindow : Obligations.CrcBufComputesWindow := by
  obtain ⟨-, -, -, -, hexample, -⟩ := crcKnownAnswers
  exact ⟨issues_code .crcBuf, fun d _ => exec_windowOp_outOfRange (op := .crcBuf) (by decide) d,
    fun d s hw hl => ⟨s.view s.off.toNat, _, reading_view _ _ _,
      exec_windowOp_inRange (op := .crcBuf) (by decide) d hw hl⟩,
    crcCompute_zero, hexample⟩

section
variable (d : Byte) {s : State} (hw : s.off.toNat + s.wlen.toNat ≤ s.len.toNat) (hl : lenInBuf s)
include hw hl

theorem exec_crcVerify_inRange : exec (.crcVerify d) s = complete s.verifyWindow :=
  exec_windowOp_inRange (op := .crcVerify) (by decide) d hw hl

/-- From two bytes on CRC_VERIFY reads its window twice, for CRC and for CRC_OK (entry 10). -/
theorem exec_crcVerify_readings (h2 : 2 ≤ s.wlen.toNat) :
    ∃ W W' n, reading s s.off.toNat s.wlen.toNat W ∧ reading s s.off.toNat s.wlen.toNat W' ∧
      exec (.crcVerify d) s = .next { s with
        crc := crcCompute W (s.wlen.toNat - 2), crcOk := crcVerify W' s.wlen.toNat, lastErr := false, draws := n
        responses := ⟨0, .ok⟩ :: s.responses } := by
  refine ⟨_, _, s.draws + (s.wlen.toNat - 2) + s.wlen.toNat, reading_view s _ _,
    reading_view { s with draws := s.draws + (s.wlen.toNat - 2) } _ _, ?_⟩
  rw [exec_crcVerify_inRange d hw hl, State.verifyWindow_of_ge h2, complete_eq]

/-- On a window whose bytes were all written, the two readings agree. -/
theorem exec_crcVerify_written {W : Nat → Byte} (h2 : 2 ≤ s.wlen.toNat)
    (hW : ∀ k < s.wlen.toNat, Memory.read? s.buf (s.off.toNat + k) = some (W k)) :
    ∃ n, exec (.crcVerify d) s = .next { s with
      crc := crcCompute W (s.wlen.toNat - 2), crcOk := crcVerify W s.wlen.toNat, lastErr := false, draws := n
      responses := ⟨0, .ok⟩ :: s.responses } := by
  obtain ⟨V, V', n, hV, hV', h⟩ := exec_crcVerify_readings d hw hl h2
  have hc : crcCompute V (s.wlen.toNat - 2) = crcCompute W (s.wlen.toNat - 2) :=
    crcCompute_congr fun k hk => reading_eq hW hV k (by omega)
  rw [hc, crcVerify_congr (reading_eq hW hV')] at h
  exact ⟨n, h⟩

end

/-- Settles O19, one lemma for each way CRC_VERIFY ends. -/
theorem crcVerifyChecksWindow : Obligations.CrcVerifyChecksWindow := by
  refine ⟨issues_code .crcVerify, fun d _ => exec_windowOp_outOfRange (op := .crcVerify) (by decide) d,
    fun d s hw hl h2 => ?_, fun d _ => exec_crcVerify_readings d,
    fun d _ _ hw hl h2 hW => exec_crcVerify_written d hw hl h2 hW⟩
  rw [exec_crcVerify_inRange d hw hl, State.verifyWindow_of_lt h2, complete_eq]

/-- Settles O21: the window is a written frame whose trailer is the payload's CRC. -/
theorem trailerVerifies : Obligations.TrailerVerifies := by
  intro d s W n hn hw hl hW hlo hhi
  have hread : ∀ k < s.wlen.toNat,
      Memory.read? s.buf (s.off.toNat + k) = some (s.view s.off.toNat k) := by
    intro k hk
    obtain ⟨b, hb⟩ : ∃ b, Memory.read? s.buf (s.off.toNat + k) = some b := by
      rcases (by omega : k < n ∨ k = n ∨ k = n + 1) with hk | rfl | rfl
      · exact ⟨_, hW k hk⟩
      · exact ⟨_, hlo⟩
      · exact ⟨_, hhi⟩
    rw [State.view_of_read hb, hb]
  have hc : crcCompute (s.view s.off.toNat) n = crcCompute W n :=
    crcCompute_congr fun k hk => State.view_of_read (hW k hk)
  have hv : crcVerify (s.view s.off.toNat) (n + 2) = true := by
    rw [crcVerify_trailer_iff, hc]
    exact ⟨State.view_of_read hlo, State.view_of_read hhi⟩
  obtain ⟨m, h⟩ := exec_crcVerify_written d hw hl (by omega) hread
  rw [hn, Nat.add_sub_cancel, hc, hv] at h
  exact ⟨m, h⟩

/-! ## A byte stream (spec/40_crc.md R108 item 1) -/

theorem run_succ_of_step {s t : State} (h : step s = .next t) (k : Nat) :
    Host.Core.run Sys2Proof.core (k + 1) s = Host.Core.run Sys2Proof.core k t := by
  have h' : Sys2Proof.core.step s = .next t := h
  simp only [Host.Core.run, h']

/-- The step that receives the CMD write of a command runs the command. -/
theorem step_command {s : State} {op : Opcode} {d : Byte} {rest : List HostEvent}
    (h : s.pending = .access (writeTo .cmd (cmdWord op d)) :: rest) :
    step s = exec (op.instr d) { s with pending := rest } := by
  obtain ⟨-, hcmd, -⟩ := stepRunsNextAccess
  exact hcmd s _ _ rest h (decodeCmd_cmdWord op d)

/-- CRC_BYTE of each byte, from a state whose LAST_ERR is clear: the bytes are folded into CRC in order. -/
theorem run_crcBytes {bs : List Byte} {s : State} {rest : List HostEvent} (he : s.lastErr = false)
    (h : s.pending = (bs.map fun b => HostEvent.access (writeTo .cmd (cmdWord .crcByte b))) ++ rest) :
    Host.Core.run Sys2Proof.core bs.length s = .next
      ({ s with crc := bs.foldl crcStep s.crc, pending := rest
                responses := List.replicate bs.length ⟨0, .ok⟩ ++ s.responses } : State) := by
  induction bs generalizing s with
  | nil =>
    obtain rfl : s.pending = rest := h
    rfl
  | cons b bs ih =>
    rw [List.length_cons, run_succ_of_step (step_command h), ih rfl rfl, List.replicate_succ', List.append_assoc, he]
    rfl

theorem map_viewOf_range (bs : List Byte) : (List.range bs.length).map (viewOf bs) = bs := by
  refine List.ext_getElem (by simp) fun k hk hk' => ?_
  simp [viewOf, hk']

/-- Settles O20: CRC_INIT sets the seed and clears LAST_ERR, and the bytes are folded from there. -/
theorem crcByteStreamChains : Obligations.CrcByteStreamChains := by
  intro bs s rest h
  have hinit : step s = exec (.crcInit 0) { s with pending := _ } := step_command (op := .crcInit) h
  rw [run_succ_of_step hinit, run_crcBytes rfl rfl, crcCompute_eq_foldl, map_viewOf_range, List.replicate_succ',
    List.append_assoc]
  rfl

end Sys2Proof.Machine

/-! # Proofs of the shape family: the primitives, the consequences of R128, and the four shape commands -/

/-! ## The lengths of each kind of function code (spec/41_shape.md R121 to R126) -/

namespace Sys2Proof.Machine

open Sys2Proof.Safety

section
variable {fc : Byte} (W : Nat → Byte) (avail : Nat)

theorem expectedLen_exception (h : 128 ≤ fc.toNat) : expectedLen fc W avail = exceptionLen avail := by
  rw [expectedLen_eq, if_pos h]

theorem expectedLen_read (h : 1 ≤ fc.toNat ∧ fc.toNat ≤ 4) : expectedLen fc W avail = readLen W avail := by
  rw [expectedLen_eq, if_neg (by omega), if_pos h]

theorem expectedLen_singleWrite (h : fc.toNat = 5 ∨ fc.toNat = 6) :
    expectedLen fc W avail = singleWriteLen avail := by
  rw [expectedLen_eq, if_neg (by omega), if_neg (by omega), if_pos h]

theorem expectedLen_multiWrite (h : fc.toNat = 15 ∨ fc.toNat = 16) :
    expectedLen fc W avail = multiWriteLen W avail := by
  rw [expectedLen_eq, if_neg (by omega), if_neg (by omega), if_neg (by omega), if_pos h]

theorem expectedLen_other (h : fc.toNat = 0 ∨ 7 ≤ fc.toNat ∧ fc.toNat ≤ 14 ∨ 17 ≤ fc.toNat ∧ fc.toNat ≤ 127) :
    expectedLen fc W avail = none := by
  rw [expectedLen_eq, if_neg (by omega), if_neg (by omega), if_neg (by omega), if_neg (by omega)]

end

/-- Bytes 4 and 5, high byte first, are a quantity a read request may have (R122). -/
def plausibleQuantity (W : Nat → Byte) : Prop :=
  1 ≤ 256 * (W 4).toNat + (W 5).toNat ∧ 256 * (W 4).toNat + (W 5).toNat ≤ 125

theorem plausibleQuantity_iff {W : Nat → Byte} :
    plausibleQuantity W ↔ Config.qtyMin ≤ quantity W ∧ quantity W ≤ Config.qtyMax := by
  rw [plausibleQuantity, quantity, Nat.mul_comm]
  rfl

/-- A plausible quantity comes before the response's byte count (R122). -/
theorem readLen_request {W : Nat → Byte} {avail : Nat} (h : 8 ≤ avail ∧ plausibleQuantity W) :
    readLen W avail = some 8 :=
  if_pos ⟨h.1, plausibleQuantity_iff.mp h.2⟩

theorem readLen_response {W : Nat → Byte} {avail : Nat} (h : ¬(8 ≤ avail ∧ plausibleQuantity W)) :
    readLen W avail =
      if 3 ≤ avail ∧ 1 ≤ (W 2).toNat ∧ (W 2).toNat ≤ 250 ∧ 5 + (W 2).toNat ≤ avail then some (5 + (W 2).toNat)
      else none :=
  if_neg fun hc => h ⟨hc.1, plausibleQuantity_iff.mpr hc.2⟩

/-- Settles O24: one rule for each kind of function code, and for reads the request before the response. -/
theorem expectedLengthPerFunctionCode : Obligations.ExpectedLengthPerFunctionCode := by
  refine fun fc W avail => ⟨expectedLen_exception W avail, fun h => ?_, expectedLen_singleWrite W avail, fun h => ?_,
    expectedLen_other W avail⟩
  · rw [expectedLen_read W avail h]
    refine ⟨readLen_request, fun hq => ?_⟩
    rw [readLen_response hq]
    exact ⟨fun hbc => if_pos hbc, fun hbc => if_neg hbc⟩
  · rw [expectedLen_multiWrite W avail h]
    exact ⟨fun hbc => if_pos hbc, fun hbc => if_neg hbc⟩

/-! ## What a length says about the view (spec/41_shape.md R127, R133) -/

section
variable {W : Nat → Byte} {avail n : Nat}

theorem exceptionLen_eq_some : exceptionLen avail = some n ↔ n = 5 ∧ 5 ≤ avail := by
  rw [exceptionLen, Option.ite_none_right_eq_some, Option.some_inj, and_comm, eq_comm]
  rfl

theorem singleWriteLen_eq_some : singleWriteLen avail = some n ↔ n = 8 ∧ 8 ≤ avail := by
  rw [singleWriteLen, Option.ite_none_right_eq_some, Option.some_inj, and_comm, eq_comm]
  rfl

/-- A byte count that R122 and R124 allow stands at index `i`. -/
def plausibleCount (W : Nat → Byte) (i : Nat) : Prop := 1 ≤ (W i).toNat ∧ (W i).toNat ≤ 250

/-- The length of a read window: its request's, or its response's. -/
theorem readLen_eq_some : readLen W avail = some n ↔
    (8 ≤ avail ∧ plausibleQuantity W ∧ n = 8) ∨
    (¬(8 ≤ avail ∧ plausibleQuantity W) ∧ plausibleCount W 2 ∧ n = 5 + (W 2).toNat ∧ n ≤ avail) := by
  by_cases hq : 8 ≤ avail ∧ plausibleQuantity W
  · rw [readLen_request hq, Option.some_inj]
    constructor
    · rintro rfl
      exact .inl ⟨hq.1, hq.2, rfl⟩
    · rintro (⟨-, -, rfl⟩ | ⟨h, -⟩)
      · rfl
      · exact absurd hq h
  · rw [readLen_response hq, Option.ite_none_right_eq_some, Option.some_inj, plausibleCount]
    constructor
    · exact fun h => .inr ⟨hq, by omega⟩
    · rintro (⟨h8, hp, -⟩ | ⟨-, h⟩)
      · exact absurd ⟨h8, hp⟩ hq
      · omega

/-- The length of a multiple-write window: its request's where the byte count fits, or its response's. -/
theorem multiWriteLen_eq_some : multiWriteLen W avail = some n ↔
    (plausibleCount W 6 ∧ n = 9 + (W 6).toNat ∧ n ≤ avail) ∨
    (¬(plausibleCount W 6 ∧ 9 + (W 6).toNat ≤ avail) ∧ n = 8 ∧ 8 ≤ avail) := by
  have h : multiWriteLen W avail =
      if 7 ≤ avail ∧ 1 ≤ (W 6).toNat ∧ (W 6).toNat ≤ 250 ∧ 9 + (W 6).toNat ≤ avail then some (9 + (W 6).toNat)
      else if 8 ≤ avail then some 8 else none := rfl
  rw [h, plausibleCount]
  split
  · rw [Option.some_inj]
    omega
  · rw [Option.ite_none_right_eq_some, Option.some_inj]
    omega

/-- Every way in which a function code has a length. -/
theorem expectedLen_cases {fc : Byte} (h : expectedLen fc W avail = some n) :
    (128 ≤ fc.toNat ∧ exceptionLen avail = some n) ∨
    ((1 ≤ fc.toNat ∧ fc.toNat ≤ 4) ∧ readLen W avail = some n) ∨
    ((fc.toNat = 5 ∨ fc.toNat = 6) ∧ singleWriteLen avail = some n) ∨
    ((fc.toNat = 15 ∨ fc.toNat = 16) ∧ multiWriteLen W avail = some n) := by
  rw [expectedLen_eq] at h
  split at h
  · exact .inl ⟨‹_›, h⟩
  split at h
  · exact .inr (.inl ⟨‹_›, h⟩)
  split at h
  · exact .inr (.inr (.inl ⟨‹_›, h⟩))
  split at h
  · exact .inr (.inr (.inr ⟨‹_›, h⟩))
  · cases h

end

/-- A plausible frame has the length of its kind, exactly (R127). -/
theorem plausibleShape_iff {W : Nat → Byte} {n : Nat} : plausibleShape W n = true ↔
    2 ≤ n ∧ (W 0).toNat ≤ 247 ∧ expectedLen (W 1) W n = some n := by
  have hmax : Config.slaveMax = 247 := rfl
  unfold plausibleShape
  split
  · exact iff_of_false Bool.false_ne_true fun h => absurd h.1 (by omega)
  split
  · exact iff_of_false Bool.false_ne_true fun h => absurd h.2.1 (by omega)
  · rw [beq_iff_eq]
    exact ⟨fun h => ⟨by omega, by omega, h⟩, fun h => h.2.2⟩

/-- Settles O25: the two tests of R127, and `plausibleShape_congr`. -/
theorem plausibleShapeTestsFrameAlone : Obligations.PlausibleShapeTestsFrameAlone :=
  ⟨fun _ _ => plausibleShape_iff, fun _ _ _ => plausibleShape_congr⟩

theorem expectedLen_le_avail {fc : Byte} {W : Nat → Byte} {avail n : Nat} (h : expectedLen fc W avail = some n) :
    n ≤ avail := by
  rcases expectedLen_cases h with ⟨-, h⟩ | ⟨-, h⟩ | ⟨-, h⟩ | ⟨-, h⟩
  · rw [exceptionLen_eq_some] at h
    omega
  · rw [readLen_eq_some] at h
    omega
  · rw [singleWriteLen_eq_some] at h
    omega
  · rw [multiWriteLen_eq_some] at h
    omega

/-- The lengths of each kind of function code (R133). -/
theorem expectedLen_kind {fc : Byte} {W : Nat → Byte} {avail n : Nat} (h : expectedLen fc W avail = some n) :
    (128 ≤ fc.toNat → n = 5) ∧
    (1 ≤ fc.toNat ∧ fc.toNat ≤ 4 → n = 8 ∨ 6 ≤ n ∧ n ≤ 255) ∧
    (fc.toNat = 5 ∨ fc.toNat = 6 → n = 8) ∧
    (fc.toNat = 15 ∨ fc.toNat = 16 → n = 8 ∨ 10 ≤ n ∧ n ≤ 259) := by
  refine ⟨fun hfc => ?_, fun hfc => ?_, fun hfc => ?_, fun hfc => ?_⟩
  · rw [expectedLen_exception W avail hfc, exceptionLen_eq_some] at h
    exact h.1
  · rw [expectedLen_read W avail hfc, readLen_eq_some] at h
    unfold plausibleCount at h
    omega
  · rw [expectedLen_singleWrite W avail hfc, singleWriteLen_eq_some] at h
    exact h.1
  · rw [expectedLen_multiWrite W avail hfc, multiWriteLen_eq_some] at h
    unfold plausibleCount at h
    omega

/-- A shape-length command leaves in EXPLEN a length some view has, or 0 (R129, R130). -/
theorem commandEffect_viewOp {op : Opcode} (h : op ∈ viewOps) (d : Byte) (s : State) :
    ∃ r : Option Nat, (∀ n, r = some n → frameLength n) ∧ commandEffect d s op = (s.setLength r).drew s.avail := by
  simp only [viewOps, List.mem_cons, List.not_mem_nil, or_false] at h
  rcases h with rfl | rfl
  · exact ⟨_, fun _ => expectedLen_frameLength, rfl⟩
  · exact ⟨_, fun _ => expectedLenAt_frameLength, rfl⟩

theorem expLen_le_of_viewOp {op : Opcode} {d : Byte} {s t : State} (hop : op ∈ viewOps)
    (h : exec (op.instr d) s = .next t) (he : t.lastErr = false) : t.expLen.toNat ≤ 259 := by
  rcases exec_command_next h with ⟨-, rfl⟩ | ⟨-, rfl⟩
  · cases he
  · obtain ⟨r, hr, heffect⟩ := commandEffect_viewOp hop d s
    rw [heffect]
    cases r with
    | none => exact Nat.zero_le _
    | some n => exact (Nat.mod_le _ _).trans (hr n rfl).2

/-- Settles O26: the general bounds by `expectedLen_frameLength`, the finer ones kind by kind. -/
theorem expectedLengthBounds : Obligations.ExpectedLengthBounds := by
  refine ⟨fun fc W avail n h => ?_, fun _ _ _ _ => expLen_le_of_viewOp, fun W n h => ?_, by decide⟩
  · exact ⟨(expectedLen_frameLength h).1, (expectedLen_frameLength h).2, expectedLen_le_avail h, expectedLen_kind h⟩
  · obtain ⟨-, -, hlen⟩ := plausibleShape_iff.mp h
    exact expectedLen_frameLength hlen

/-! ## The consequences of the rules (spec/41_shape.md R128) -/

section
variable {W : Nat → Byte} {n : Nat}

/-- A window as long as its expected length has two bytes, so only the slave id remains to be tested. -/
theorem plausibleShape_of_expectedLen (h0 : (W 0).toNat ≤ 247) (h : expectedLen (W 1) W n = some n) :
    plausibleShape W n = true :=
  plausibleShape_iff.mpr ⟨(by decide : 2 ≤ 5).trans (expectedLen_frameLength h).1, h0, h⟩

/-- Item 1: a read window above 8 bytes with a plausible quantity has the request's length, not its own. -/
theorem not_plausibleShape_above_request (hfc : 1 ≤ (W 1).toNat ∧ (W 1).toNat ≤ 4) (hn : 8 < n)
    (hq : plausibleQuantity W) : plausibleShape W n = false := by
  refine Bool.eq_false_iff.mpr fun h => ?_
  obtain ⟨-, -, hlen⟩ := plausibleShape_iff.mp h
  rw [expectedLen_read W n hfc, readLen_request ⟨hn.le, hq⟩, Option.some_inj] at hlen
  omega

/-- Items 2 and 3: a read window that is no request and is as long as its byte count says is a response. -/
theorem expectedLen_response (hfc : 1 ≤ (W 1).toNat ∧ (W 1).toNat ≤ 4) (hq : ¬(8 ≤ n ∧ plausibleQuantity W))
    (hbc : plausibleCount W 2) (hn : n = 5 + (W 2).toNat) : expectedLen (W 1) W n = some n := by
  rw [expectedLen_read W n hfc, readLen_eq_some]
  exact .inr ⟨hq, hbc, hn, le_rfl⟩

/-- Item 4: a multiple-write window of 8 bytes has its response's length whatever its byte count, which would need
ten bytes or more. -/
theorem expectedLen_multiWrite_eight (hfc : W 1 = 15 ∨ W 1 = 16) : expectedLen (W 1) W 8 = some 8 := by
  rw [expectedLen_multiWrite W 8 ((fc_groups _).2.2.mp hfc), multiWriteLen_eq_some]
  refine .inr ⟨fun ⟨hbc, hle⟩ => ?_, rfl, le_rfl⟩
  have h1 := hbc.1
  omega

theorem expectedLen_multiWrite_request (hfc : W 1 = 15 ∨ W 1 = 16) (hbc : plausibleCount W 6) :
    expectedLen (W 1) W (9 + (W 6).toNat) = some (9 + (W 6).toNat) := by
  rw [expectedLen_multiWrite W _ ((fc_groups _).2.2.mp hfc), multiWriteLen_eq_some]
  exact .inl ⟨hbc, rfl, le_rfl⟩

/-- Item 5 for reads: a response becomes a request with one more byte, at 7 bytes and with a plausible quantity. -/
theorem readLen_succ (h : readLen W n = some n) :
    readLen W (n + 1) = some (n + 1) ↔ n = 7 ∧ plausibleQuantity W := by
  rw [readLen_eq_some] at h ⊢
  constructor
  · rintro (⟨-, hq, hn⟩ | ⟨hreq, -, hn, -⟩)
    · exact ⟨by omega, hq⟩
    · rcases h with ⟨h8, hq, -⟩ | ⟨-, -, h, -⟩
      · exact absurd ⟨Nat.le_succ_of_le h8, hq⟩ hreq
      · omega
  · rintro ⟨rfl, hq⟩
    exact .inl ⟨le_rfl, hq, rfl⟩

/-- Item 5 for multiple writes: the byte count fixes the request's length, and the response has 8 bytes. -/
theorem multiWriteLen_succ (h : multiWriteLen W n = some n) : multiWriteLen W (n + 1) ≠ some (n + 1) := by
  rw [Ne, multiWriteLen_eq_some]
  rw [multiWriteLen_eq_some] at h
  unfold plausibleCount at h ⊢
  omega

/-- Item 5: one more byte keeps the length's kind, so only the read shapes, which are two, can both fit. -/
theorem expectedLen_succ {fc : Byte} (h : expectedLen fc W n = some n) :
    expectedLen fc W (n + 1) = some (n + 1) ↔
      n = 7 ∧ (1 ≤ fc.toNat ∧ fc.toNat ≤ 4) ∧ plausibleQuantity W := by
  rcases expectedLen_cases h with ⟨hfc, h⟩ | ⟨hfc, h⟩ | ⟨hfc, h⟩ | ⟨hfc, h⟩
  · rw [exceptionLen_eq_some] at h
    rw [expectedLen_exception W _ hfc, exceptionLen_eq_some]
    omega
  · rw [expectedLen_read W _ hfc, readLen_succ h, and_iff_right hfc]
  · rw [singleWriteLen_eq_some] at h
    rw [expectedLen_singleWrite W _ hfc, singleWriteLen_eq_some]
    omega
  · rw [expectedLen_multiWrite W _ hfc]
    exact iff_of_false (multiWriteLen_succ h) (by omega)

theorem plausibleShape_succ (h : plausibleShape W n = true) : plausibleShape W (n + 1) = true ↔
    n = 7 ∧ (1 ≤ (W 1).toNat ∧ (W 1).toNat ≤ 4) ∧ plausibleQuantity W := by
  obtain ⟨h2, h0, hlen⟩ := plausibleShape_iff.mp h
  rw [plausibleShape_iff, and_iff_right (Nat.le_succ_of_le h2), and_iff_right h0]
  exact expectedLen_succ hlen

/-- Item 6: slave ids 248 to 255 are never plausible. -/
theorem not_plausibleShape_of_slave (h : 248 ≤ (W 0).toNat) : plausibleShape W n = false := by
  refine Bool.eq_false_iff.mpr fun hp => ?_
  obtain ⟨-, h0, -⟩ := plausibleShape_iff.mp hp
  omega

end

/-- Item 8: byte 0, the slave id, is not looked at for the length. -/
theorem expectedLen_congr_ne_zero (fc : Byte) {W W' : Nat → Byte} (h : ∀ k, k ≠ 0 → W k = W' k) (avail : Nat) :
    expectedLen fc W avail = expectedLen fc W' avail := by
  have hq : quantity W = quantity W' := by rw [quantity, quantity, h 4 (by decide), h 5 (by decide)]
  have hr : readLen W avail = readLen W' avail := by rw [readLen, readLen, hq, h 2 (by decide)]
  have hm : multiWriteLen W avail = multiWriteLen W' avail := by rw [multiWriteLen, multiWriteLen, h 6 (by decide)]
  rw [expectedLen, expectedLen, hr, hm]

/-- Settles O27, item by item; the examples are computed. -/
theorem shapeCornerCases : Obligations.ShapeCornerCases := by
  refine ⟨⟨fun fc W avail h1 h4 h8 hq1 hq2 => ?_,
      fun W n h1 h4 hn hq1 hq2 => not_plausibleShape_above_request ⟨h1, h4⟩ hn ⟨hq1, hq2⟩, by decide +kernel⟩,
    ⟨fun W h0 h1 h4 h2 hq => ?_, by decide⟩, ⟨fun W h0 h1 h4 h2 => ?_, by decide⟩, fun W h0 hfc => ?_,
    ⟨fun W n h => ?_, by decide +kernel⟩, ⟨by decide, fun W n => not_plausibleShape_of_slave⟩,
    fun W avail h => ?_, fun fc b W avail => ?_⟩
  · rw [expectedLen_read W avail ⟨h1, h4⟩]
    exact readLen_request ⟨h8, hq1, hq2⟩
  · have hlen : expectedLen (W 1) W 8 = some 8 :=
      expectedLen_response ⟨h1, h4⟩ (fun h => hq h.2) (by simp [plausibleCount, h2]) (by simp [h2])
    exact ⟨hlen, plausibleShape_of_expectedLen h0 hlen⟩
  · exact plausibleShape_of_expectedLen h0
      (expectedLen_response ⟨h1, h4⟩ (by simp) (by simp [plausibleCount, h2]) (by simp [h2]))
  · exact ⟨plausibleShape_of_expectedLen h0 (expectedLen_multiWrite_eight hfc),
      fun hbc => plausibleShape_of_expectedLen h0 (expectedLen_multiWrite_request hfc hbc)⟩
  · rw [plausibleShape_succ h, and_assoc]
    rfl
  · rw [expectedLen_exception W avail (by decide)]
    exact if_pos h
  · exact expectedLen_congr_ne_zero fc (fun k hk => if_neg hk) avail

/-! ## SHAPE_LEN and SHAPE_LEN_AT (spec/41_shape.md R129, R130) -/

theorem not_mem_windowOps_of_mem_viewOps {op : Opcode} (h : op ∈ viewOps) : op ∉ windowOps :=
  fun hw => not_mem_viewOps_of_mem_windowOps hw h

/-- The range check of a shape-length command (R175). -/
theorem inRange_viewOp_iff {op : Opcode} (h : op ∈ viewOps) {s : State} :
    inRange s op ↔ s.off.toNat ≤ s.len.toNat :=
  ⟨fun hr => hr.2 h, fun hv => ⟨fun hw => absurd hw (not_mem_windowOps_of_mem_viewOps h), fun _ => hv⟩⟩

theorem exec_viewOp_inRange {op : Opcode} (h : op ∈ viewOps) (d : Byte) {s : State}
    (hv : s.off.toNat ≤ s.len.toNat) (hl : lenInBuf s) :
    exec (op.instr d) s = complete (commandEffect d s op) :=
  exec_command_inRange d ((inRange_viewOp_iff h).mpr hv) hl

theorem exec_viewOp_outOfRange {op : Opcode} (h : op ∈ viewOps) (d : Byte) {s : State}
    (hv : s.len.toNat < s.off.toNat) : exec (op.instr d) s = .next (rejected s 3) :=
  exec_command_outOfRange d fun hr => Nat.not_le.mpr hv ((inRange_viewOp_iff h).mp hr)

/-- How a shape-length command completes: with its result in (LEN_VALID, EXPLEN) (R26). -/
theorem complete_setLength (s : State) (r : Option Nat) (n : Nat) :
    complete ((s.setLength r).drew n) = .next { s with
      expLen := BitVec.ofNat 16 (r.getD 0), lenValid := r.isSome, lastErr := false, draws := s.draws + n
      responses := ⟨0, .ok⟩ :: s.responses } := by
  rw [State.setLength_eq]
  rfl

/-- Every shape needs five bytes. -/
theorem expectedLen_of_lt (fc : Byte) (W : Nat → Byte) {avail : Nat} (h : avail < 5) :
    expectedLen fc W avail = none := by
  refine Option.eq_none_iff_forall_not_mem.mpr fun n hn => ?_
  have h5 := (expectedLen_frameLength hn).1
  have hle := expectedLen_le_avail hn
  omega

/-- Settles O28: what SHAPE_LEN sees of BUF is a reading of its view. -/
theorem shapeLenSetsResult : Obligations.ShapeLenSetsResult := by
  refine ⟨issues_code .shapeLen, fun fc _ => exec_viewOp_outOfRange (op := .shapeLen) (by decide) fc,
    fun fc s hv hl => ⟨s.view s.off.toNat, s.draws + s.avail, reading_view _ _ _, ?_⟩,
    fun fc W => expectedLen_of_lt fc W (by decide), by decide⟩
  exact (exec_viewOp_inRange (op := .shapeLen) (by decide) fc hv hl).trans (complete_setLength s _ _)

theorem expectedLenAt_of_lt (W : Nat → Byte) {avail : Nat} (h : avail < 2) : expectedLenAt W avail = none := if_pos h

theorem expectedLenAt_of_ge (W : Nat → Byte) {avail : Nat} (h : 2 ≤ avail) :
    expectedLenAt W avail = expectedLen (W 1) W avail := if_neg (Nat.not_lt.mpr h)

theorem exec_shapeLenAt_inRange (d : Byte) {s : State} (hv : s.off.toNat ≤ s.len.toNat) (hl : lenInBuf s) :
    exec (.shapeLenAt d) s =
      complete ((s.setLength (expectedLenAt (s.view s.off.toNat) (s.len.toNat - s.off.toNat))).drew s.avail) :=
  exec_viewOp_inRange (op := .shapeLenAt) (by decide) d hv hl

/-- Settles O29, as O28, with no function code below two bytes. -/
theorem shapeLenAtSetsResult : Obligations.ShapeLenAtSetsResult := by
  refine ⟨issues_code .shapeLenAt, fun d _ => exec_viewOp_outOfRange (op := .shapeLenAt) (by decide) d,
    fun d s hv hl h2 => ⟨s.draws + s.avail, ?_⟩,
    fun d s hv hl h2 => ⟨s.view s.off.toNat, s.draws + s.avail, reading_view _ _ _, ?_⟩, by decide⟩
  · rw [exec_shapeLenAt_inRange d hv hl, expectedLenAt_of_lt _ h2, complete_setLength]
    rfl
  · rw [exec_shapeLenAt_inRange d hv hl, expectedLenAt_of_ge _ h2, complete_setLength]

/-! ## SHAPE_CHECK and FRAME_CHECK (spec/41_shape.md R131, R132) -/

theorem plausibleShape_of_lt (W : Nat → Byte) {n : Nat} (h : n < 2) : plausibleShape W n = false := if_pos h

/-- Settles O30: what SHAPE_CHECK sees of BUF is a reading of its window. -/
theorem shapeCheckTestsWindow : Obligations.ShapeCheckTestsWindow :=
  ⟨issues_code .shapeCheck, fun d _ => exec_windowOp_outOfRange (op := .shapeCheck) (by decide) d,
    fun d s hw hl => ⟨s.view s.off.toNat, _, reading_view _ _ _,
      exec_windowOp_inRange (op := .shapeCheck) (by decide) d hw hl⟩,
    fun W _ => plausibleShape_of_lt W, by decide⟩

section
variable (d : Byte) {s : State} (hw : s.off.toNat + s.wlen.toNat ≤ s.len.toNat) (hl : lenInBuf s)
include hw hl

theorem exec_frameCheck_inRange : exec (.frameCheck d) s = complete s.checkShape.verifyWindow :=
  exec_windowOp_inRange (op := .frameCheck) (by decide) d hw hl

/-- A window below two bytes fails both tests, and CRC keeps its value. -/
theorem exec_frameCheck_of_lt (h2 : s.wlen.toNat < 2) :
    ∃ n, exec (.frameCheck d) s = .next { s with
      shapeOk := false, crcOk := false, lastErr := false, draws := n, responses := ⟨0, .ok⟩ :: s.responses } := by
  have hp : plausibleShape (s.view s.start) s.windowLen = false := plausibleShape_of_lt _ h2
  refine ⟨s.draws + s.wlen.toNat, ?_⟩
  rw [exec_frameCheck_inRange d hw hl, State.verifyWindow_of_lt (s := s.checkShape) h2, State.checkShape, hp]
  rfl

/-- From two bytes on FRAME_CHECK reads its window three times, for SHAPE_OK, CRC and CRC_OK (entry 10). -/
theorem exec_frameCheck_readings (h2 : 2 ≤ s.wlen.toNat) :
    ∃ V W W' n, reading s s.off.toNat s.wlen.toNat V ∧ reading s s.off.toNat s.wlen.toNat W ∧
      reading s s.off.toNat s.wlen.toNat W' ∧ exec (.frameCheck d) s = .next { s with
        shapeOk := plausibleShape V s.wlen.toNat, crc := crcCompute W (s.wlen.toNat - 2)
        crcOk := crcVerify W' s.wlen.toNat, lastErr := false, draws := n
        responses := ⟨0, .ok⟩ :: s.responses } := by
  have hdraws (n : Nat) : reading s s.off.toNat s.wlen.toNat (State.view { s with draws := n } s.off.toNat) :=
    reading_view { s with draws := n } _ _
  refine ⟨s.view s.off.toNat, _, _, s.draws + s.wlen.toNat + (s.wlen.toNat - 2) + s.wlen.toNat, reading_view s _ _,
    hdraws (s.draws + s.wlen.toNat), hdraws (s.draws + s.wlen.toNat + (s.wlen.toNat - 2)), ?_⟩
  rw [exec_frameCheck_inRange d hw hl, State.verifyWindow_of_ge (s := s.checkShape) h2]
  rfl

end

/-- Settles O31, one lemma for each way FRAME_CHECK ends; the four windows are computed. -/
theorem frameCheckTestsWindow : Obligations.FrameCheckTestsWindow :=
  ⟨issues_code .frameCheck, fun d _ => exec_windowOp_outOfRange (op := .frameCheck) (by decide) d,
    fun d _ => exec_frameCheck_of_lt d, fun d _ => exec_frameCheck_readings d, by decide +kernel⟩

/-- Verifying the window neither reads nor writes STATUS and the answers. -/
theorem verifyWindow_counted_respond (s : State) (w : BusWord) (r : Resp) :
    (s.counted.respond w r).verifyWindow = s.verifyWindow.counted.respond w r := by
  by_cases h : s.wlen.toNat < 2
  · rw [State.verifyWindow_of_lt h, State.verifyWindow_of_lt (s := s.counted.respond w r) h]
    rfl
  · have h2 : 2 ≤ s.wlen.toNat := Nat.le_of_not_lt h
    rw [State.verifyWindow_of_ge h2, State.verifyWindow_of_ge (s := s.counted.respond w r) h2]
    rfl

/-- Completing once and completing twice leave the same state but for the answers. -/
theorem complete_eq_twice (s : State) : complete s =
    .next { (s.counted.respond 0 .ok).counted.respond 0 .ok with responses := ⟨0, .ok⟩ :: s.responses } := rfl

/-- Settles O32: CRC_VERIFY finds the window, and the count of draws, as FRAME_CHECK finds them after its shape
check. -/
theorem frameCheckIsBothChecks : Obligations.FrameCheckIsBothChecks := by
  intro d d' d'' s t u hl hshape herr hverify
  rcases exec_command_next (op := .shapeCheck) hshape with ⟨-, rfl⟩ | ⟨hr, rfl⟩
  · cases herr
  · have hw : s.off.toNat + s.wlen.toNat ≤ s.len.toNat := (inRange_windowOp_iff (by decide)).mp hr
    have hu : complete (s.checkShape.counted.respond 0 .ok).verifyWindow = .next u :=
      (exec_crcVerify_inRange d' (s := s.checkShape.counted.respond 0 .ok) hw hl).symm.trans hverify
    rw [verifyWindow_counted_respond] at hu
    obtain rfl := Host.Outcome.next.inj hu
    rw [exec_frameCheck_inRange d'' hw hl, complete_eq_twice, State.verifyWindow_responses,
      State.checkShape_responses]

end Sys2Proof.Machine

/-! # Proofs of the control family: NOP, BUF_CLEAR and ERR_CLEAR, register and BUF window accesses, ignored accesses -/

namespace Sys2Proof.Machine

open Sys2Proof.Safety

/-! ## NOP, BUF_CLEAR and ERR_CLEAR (spec/42_control.md R150 to R152) -/

/-- Settles O33: the encoding by `issues_code`, the effect by the definition. -/
theorem nopOnlyClearsLastErr : Obligations.NopOnlyClearsLastErr := ⟨issues_code .nop, fun _ _ => rfl⟩

/-- Settles O34, as O33. -/
theorem bufClearKeepsBytes : Obligations.BufClearKeepsBytes := ⟨issues_code .bufClear, fun _ _ => rfl⟩

/-- A rejection keeps an error that is already recorded (R171). -/
theorem rejected_errCode_of_ne {s : State} (h : s.errCode ≠ 0) (c : BitVec 4) : (rejected s c).errCode = s.errCode :=
  if_neg h

/-- Over one instruction a recorded error is kept, unless the instruction runs ERR_CLEAR. -/
theorem exec_keeps_errCode {i : Instr} {s t : State} (h : exec i s = .next t) (he : s.errCode ≠ 0) :
    t.errCode = s.errCode ∨ runs i .errClear := by
  cases exec_ends h with
  | rejected c => subst t; exact .inl (rejected_errCode_of_ne he c)
  | mis => subst t; exact .inl (if_neg he)
  | cmd op d _ hi =>
    subst t
    by_cases hop : op = .errClear
    · exact .inr (hop ▸ hi)
    · exact .inl ((commandEffect_errCode d s op).trans (if_neg hop))
  | len | off | wlen | push | buf | ans => subst t; exact .inl rfl

/-- Settles O35: a code that is lowered was a recorded error, which ERR_CLEAR alone clears. -/
theorem errClearClearsCode : Obligations.ErrClearClearsCode := by
  refine ⟨issues_code .errClear, fun _ _ => rfl,
    fun w s hw he => ⟨_, exec_wrCmd_of_rsvd hw s, rejected_errCode_of_ne he 1⟩, fun i s t h hlt => ?_⟩
  have he : s.errCode ≠ 0 := fun h0 => by simp [h0] at hlt
  exact (exec_keeps_errCode h he).resolve_left fun heq => by simp [heq] at hlt

/-! ## LEN, OFF and WLEN writes (spec/42_control.md R153 to R155) -/

/-- Settles O36: the check against `P_BUF_SIZE` fails or passes. -/
theorem lenWriteSetsLen : Obligations.LenWriteSetsLen :=
  ⟨decodeAccess_reg .write .len, fun _ _ h => if_pos h, fun _ _ h => if_neg (Nat.not_lt.mpr h), rfl⟩

/-- Settles O37: neither write has a check. -/
theorem offAndWlenWritesTakeAnyValue : Obligations.OffAndWlenWritesTakeAnyValue :=
  ⟨fun w => ⟨decodeAccess_reg .write .off w, decodeAccess_reg .write .wlen w⟩, fun _ _ => ⟨rfl, rfl⟩⟩

/-! ## PUSH (spec/42_control.md R156, spec/30_encoding.md R79) -/

/-- The state after a PUSH of `b` with room for it: BUF, LEN, LAST_ERR and the answer. -/
def State.pushed (s : State) (b : Byte) : State :=
  { s with
    buf := Memory.write s.buf s.len.toNat b
    len := BitVec.ofNat 16 (s.len.toNat + 1)
    lastErr := false
    responses := ⟨0, .ok⟩ :: s.responses }

theorem exec_wrPush_full {s : State} (h : s.len.toNat = 512) (w : BusWord) :
    exec (.wrPush w) s = .next (rejected s 5) := if_pos h

theorem exec_wrPush_room {s : State} (h : s.len.toNat < 512) (w : BusWord) :
    exec (.wrPush w) s = .next (s.pushed (lowByte w)) := by
  have hlen : s.len + 1 = BitVec.ofNat 16 (s.len.toNat + 1) := by
    rw [BitVec.ofNat_add, BitVec.ofNat_toNat, BitVec.setWidth_eq]
    rfl
  change execWrPush w s = _
  rw [execWrPush, if_neg (show s.len.toNat ≠ Config.bufSize from h.ne), inBuf_of_le _ h, complete_eq, hlen]
  rfl

/-- Settles O38: a write to BUF sets the index it names and no other. -/
theorem pushAppendsByte : Obligations.PushAppendsByte :=
  ⟨decodeAccess_reg .write .push, fun w _ h => exec_wrPush_full h w, fun w _ h =>
    ⟨_, exec_wrPush_room h w, Memory.read?_write_self _ _ _, fun _ => Memory.read?_write_of_ne _ _⟩⟩

theorem lowByte_setWidth (b : Byte) : lowByte (b.setWidth 32) = b := by
  apply BitVec.eq_of_toNat_eq
  simpa [lowByte] using b.isLt

/-- The step that receives a PUSH of a byte with room for it. -/
theorem step_push {s : State} {b : Byte} {rest : List HostEvent}
    (h : s.pending = .access (writeTo .push (b.setWidth 32)) :: rest) (hl : s.len.toNat < 512) :
    step s = .next ({ s with pending := rest }.pushed b) := by
  have hpush := exec_wrPush_room (s := { s with pending := rest }) hl (b.setWidth 32)
  rw [step_access h, writeTo, decodeAccess_reg]
  rwa [lowByte_setWidth] at hpush

/-- The run of a line of PUSH writes that fits: the bytes are written from LEN on. With no byte LAST_ERR is kept. -/
theorem run_pushBytes {bs : List Byte} {s : State} {rest : List HostEvent} (hl : s.len.toNat + bs.length ≤ 512)
    (h : s.pending = (bs.map fun b => HostEvent.access (writeTo .push (b.setWidth 32))) ++ rest) :
    Host.Core.run Sys2Proof.core bs.length s = .next
      ({ s with buf := Memory.writeBytes s.buf s.len.toNat bs, len := BitVec.ofNat 16 (s.len.toNat + bs.length)
                lastErr := bs.isEmpty && s.lastErr, pending := rest
                responses := List.replicate bs.length ⟨0, .ok⟩ ++ s.responses } : State) := by
  induction bs generalizing s with
  | nil =>
    obtain rfl : s.pending = rest := h
    simp [Host.Core.run, Memory.writeBytes]
  | cons b bs ih =>
    rw [List.length_cons] at hl
    have hlen : (BitVec.ofNat 16 (s.len.toNat + 1)).toNat = s.len.toNat + 1 := by
      rw [BitVec.toNat_ofNat]
      omega
    rw [List.length_cons, run_succ_of_step (step_push h (by omega)), ih (by simp [State.pushed, hlen]; omega) rfl]
    simp [State.pushed, Memory.writeBytes, hlen, List.replicate_succ', Nat.add_assoc, Nat.add_comm 1]

/-- Settles O39, by `run_pushBytes`: of the bytes written from LEN on, each is read at its place. -/
theorem pushSequenceAppendsBytes : Obligations.PushSequenceAppendsBytes := by
  intro bs s rest hne hl h
  refine ⟨Memory.writeBytes s.buf s.len.toNat bs, ?_, fun x => Memory.read?_writeBytes s.buf s.len.toNat x bs⟩
  rw [run_pushBytes hl h, List.isEmpty_eq_false_iff.mpr hne]
  rfl

/-! ## The BUF window (spec/42_control.md R157, R159, spec/20_memory.md R54) -/

/-- The BUF window row of the map of R74. -/
theorem decodeAccess_window_row {k : Nat} {o : Offset} (hk : k < 128) (ho : o.toNat = 0x400 + 4 * k) (w : BusWord) :
    decodeAccess ⟨.read, o, w⟩ = .rdBuf k ∧ decodeAccess ⟨.write, o, w⟩ = .wrBuf k w := by
  obtain ⟨-, hwindow, -⟩ := alignedAccessMap
  exact hwindow o w k hk ho

/-- The bytes of BUF window word k exist (R42). -/
theorem windowWord_inBuf {k : Nat} (hk : k < 128) : 4 * k + 4 ≤ Config.bufSize := by
  rw [Config.bufSize_eq]
  omega

theorem windowBytes_getElem? (w : BusWord) {i : Nat} (hi : i < 4) :
    (windowBytes w)[i]? = some (w.extractLsb' (8 * i) 8) := by
  match i, hi with
  | 0, _ | 1, _ | 2, _ | 3, _ => rfl

/-- Settles O40: the four bytes are written from index 4k on. -/
theorem bufWriteStoresWord : Obligations.BufWriteStoresWord := by
  refine ⟨fun k o w hk ho => (decodeAccess_window_row hk ho w).2, fun k w s hk =>
    ⟨Memory.writeBytes s.buf (4 * k) (windowBytes w), inBuf_of_le _ (windowWord_inBuf hk), fun i hi => ?_,
      fun x hx => ?_⟩⟩
  all_goals rw [Memory.read?_writeBytes, show (windowBytes w).length = 4 from rfl]
  · rw [if_pos (by omega), Nat.add_sub_cancel_left, windowBytes_getElem? w hi]
  · rw [if_neg (by omega)]

/-- Settles O41: what the read sees of BUF is a reading of its word, whose bytes are put together as a sum. -/
theorem bufReadAnswersWord : Obligations.BufReadAnswersWord := by
  refine ⟨fun k o w hk ho => (decodeAccess_window_row hk ho w).1, fun k s hk =>
    ⟨s.view (4 * k), s.draws + 4, reading_view s _ _, (inBuf_of_le _ (windowWord_inBuf hk)).trans ?_⟩⟩
  rw [windowValue, bytes_eq_ofNat, answer_eq]
  rfl

/-! ## Register reads (spec/42_control.md R158, spec/10_state.md R34, R39) -/

/-- A field of a word as a number, where all its bits fit. -/
theorem setWidth_shiftLeft_toNat {m : Nat} (x : BitVec m) (n : Nat) (h : m + n ≤ 32) :
    (x.setWidth 32 <<< n).toNat = x.toNat * 2 ^ n := by
  have hx : x.toNat * 2 ^ n < 2 ^ 32 := calc
    x.toNat * 2 ^ n < 2 ^ m * 2 ^ n := Nat.mul_lt_mul_of_pos_right x.isLt (Nat.two_pow_pos n)
    _ = 2 ^ (m + n) := (Nat.pow_add 2 m n).symm
    _ ≤ 2 ^ 32 := Nat.pow_le_pow_right (by decide) h
  rw [BitVec.toNat_shiftLeft, BitVec.toNat_setWidth_of_le (by omega), Nat.shiftLeft_eq, Nat.mod_eq_of_lt hx]

/-- STATUS as a number (R34). -/
theorem statusWord_eq (s : State) :
    s.statusWord = BitVec.ofNat 32 (16 * s.errCode.toNat + s.lastErr.toNat) := by
  have he : (s.errCode.setWidth 32 <<< 4 : BusWord).toNat = s.errCode.toNat * 16 :=
    setWidth_shiftLeft_toNat s.errCode 4 (by decide)
  have hl : ((BitVec.ofBool s.lastErr).setWidth 32 : BusWord).toNat = s.lastErr.toNat := by
    rw [BitVec.toNat_setWidth_of_le (by decide), BitVec.toNat_ofBool]
  have hlt := s.lastErr.toNat_lt
  rw [State.statusWord, or_eq_add _ _ 4 (by omega) (by omega)]
  apply BitVec.eq_of_toNat_eq
  rw [BitVec.toNat_add, he, hl, BitVec.toNat_ofNat, Nat.mul_comm]

/-- RESULT as a number (R39). -/
theorem resultWord_eq (s : State) :
    s.resultWord = BitVec.ofNat 32 (s.expLen.toNat + 65536 * s.lenValid.toNat + 131072 * s.crcOk.toNat +
      262144 * s.shapeOk.toNat) := by
  have hflag (b : Bool) (n : Nat) (hn : 1 + n ≤ 32) :
      ((BitVec.ofBool b).setWidth 32 <<< n : BusWord).toNat = b.toNat * 2 ^ n := by
    rw [setWidth_shiftLeft_toNat _ n hn, BitVec.toNat_ofBool]
  have hs := hflag s.shapeOk 18 (by decide)
  have hc := hflag s.crcOk 17 (by decide)
  have hv := hflag s.lenValid 16 (by decide)
  have he : (s.expLen.setWidth 32 : BusWord).toNat = s.expLen.toNat := BitVec.toNat_setWidth_of_le (by decide)
  have := s.expLen.isLt; have := s.lenValid.toNat_lt; have := s.crcOk.toNat_lt; have := s.shapeOk.toNat_lt
  rw [State.resultWord, or_eq_add _ ((BitVec.ofBool s.crcOk).setWidth 32 <<< 17) 18 (by omega) (by omega),
    or_eq_add _ ((BitVec.ofBool s.lenValid).setWidth 32 <<< 16) 17 (by omega) (by rw [BitVec.toNat_add]; omega),
    or_eq_add _ (s.expLen.setWidth 32) 16 (by omega) (by rw [BitVec.toNat_add, BitVec.toNat_add]; omega)]
  apply BitVec.eq_of_toNat_eq
  rw [BitVec.toNat_add, BitVec.toNat_add, BitVec.toNat_add, BitVec.toNat_ofNat]
  omega

/-- Settles O43: STATUS and RESULT are put together from their fields; the 16-bit registers are widened. -/
theorem registerReadValues : Obligations.RegisterReadValues := by
  refine ⟨decodeAccess_reg .read, fun s => ⟨rfl, rfl, ?_, ?_, ?_, ?_, ?_, ?_, rfl, rfl, fun size hs => ?_⟩⟩
  · exact congrArg (answer · s) (statusWord_eq s)
  · exact congrArg (answer · s) (half_setWidth s.crc)
  · exact congrArg (answer · s) (half_setWidth s.len)
  · exact congrArg (answer · s) (half_setWidth s.off)
  · exact congrArg (answer · s) (half_setWidth s.wlen)
  · exact congrArg (answer · s) (resultWord_eq s)
  · obtain ⟨h, hv⟩ := execSized_rdCfg hs s
    exact ⟨_, hv, h⟩

/-! ## Ignored accesses (spec/42_control.md R160, spec/10_state.md R43) -/

/-- Settles O44: none of these instructions does more than answer, and the map of R74 gives their offsets. -/
theorem ignoredAccessesChangeNothing : Obligations.IgnoredAccessesChangeNothing := by
  refine ⟨fun s w i hi => ?_, fun w => ?_, fun _ _ _ _ => rfl, fun d o w ho h => ?_⟩
  · simp only [List.mem_cons, List.not_mem_nil, or_false] at hi
    rcases hi with rfl | rfl | rfl | rfl | rfl | rfl | rfl <;> rfl
  · have row (r : Reg) := decodeAccess_register_row r w w
    exact ⟨(row .id).2, (row .status).2, (row .crc).2, (row .result).2, (row .cfg).2, (row .cmd).1, (row .push).1⟩
  · exact decodeAccess_reserved d w (reserved_iff.mpr ⟨beq_iff_eq.mpr ho, h⟩)

end Sys2Proof.Machine

/-! # Proofs of the exceptions family: what a rejection leaves, how STATUS and the answer follow, and its priority -/

namespace Sys2Proof.Machine

open Sys2Proof.Safety

/-! ## What each cause of R170 does (spec/60_exceptions.md R170, R171) -/

/-- An instruction that runs a command answers as the command by itself, with some DATA (R75). -/
theorem exec_of_runs {i : Instr} {op : Opcode} (h : runs i op) (s : State) : ∃ d, exec i s = exec (op.instr d) s := by
  rcases h with ⟨d, rfl⟩ | ⟨w, rfl, h0, h1⟩
  · exact ⟨d, rfl⟩
  · exact ⟨dataField w, exec_wrCmd_of_code s h0 h1⟩

theorem exec_runs_outOfRange {i : Instr} {op : Opcode} {s : State} (h : runs i op) (hr : ¬inRange s op) :
    exec i s = .next (rejected s 3) := by
  obtain ⟨d, he⟩ := exec_of_runs h s
  exact he.trans (exec_command_outOfRange d hr)

theorem exec_wrCmd_of_ne_code {w : BusWord} (h0 : rsvdField w = 0) (h : ∀ op : Opcode, opField w ≠ op.code)
    (s : State) : exec (.wrCmd w) s = .next (rejected s 2) :=
  exec_wrCmd_of_undefined h0 (opcodeAt_eq_none_iff.mpr fun ⟨op, hop⟩ => h op hop.symm) s

theorem exec_wrLen_above {w : BusWord} (h : Config.bufSize < (lowHalf w).toNat) (s : State) :
    exec (.wrLen w) s = .next (rejected s 4) := if_pos h

/-- An operation with a cause is rejected with its code, and answered (R171, R173). -/
theorem exec_of_cause {i : Instr} {s : State} {code : BitVec 4} (h : cause s i code) :
    ∃ a, exec i s = .next { rejected s code with responses := a :: s.responses } := by
  rcases h with ⟨rfl, w, rfl, h⟩ | ⟨rfl, w, rfl, h0, h⟩ | ⟨rfl, op, hi, h⟩ | ⟨rfl, w, rfl, h⟩ | ⟨rfl, w, rfl, h⟩ |
    ⟨rfl, d, o, w, rfl⟩
  · exact ⟨_, exec_wrCmd_of_rsvd h s⟩
  · exact ⟨_, exec_wrCmd_of_ne_code h0 h s⟩
  · exact ⟨_, exec_runs_outOfRange hi h⟩
  · exact ⟨_, exec_wrLen_above h s⟩
  · exact ⟨_, exec_wrPush_full h w⟩
  · exact ⟨_, rfl⟩

theorem cause_code_range {i : Instr} {s : State} {code : BitVec 4} (h : cause s i code) :
    1 ≤ code.toNat ∧ code.toNat ≤ 6 := by
  rcases h with ⟨rfl, -⟩ | ⟨rfl, -⟩ | ⟨rfl, -⟩ | ⟨rfl, -⟩ | ⟨rfl, -⟩ | ⟨rfl, -⟩ <;> decide

/-- Settles O46: each cause is followed to its rejection by `exec_of_cause`. -/
theorem rejectionWritesOnlyStatus : Obligations.RejectionWritesOnlyStatus := by
  intro i s code h
  obtain ⟨hlo, hhi⟩ := cause_code_range h
  exact ⟨hlo, hhi, exec_of_cause h⟩

/-! ## STATUS after an operation (spec/60_exceptions.md R172, R177, R185) -/

theorem counted_of_runs {i : Instr} {op : Opcode} (h : runs i op) : counted i = true := by
  rcases h with ⟨d, rfl⟩ | ⟨w, rfl, -⟩
  · exact counted_instr op d
  · rfl

theorem counted_of_cause {i : Instr} {s : State} {code : BitVec 4} (h : cause s i code) : counted i = true := by
  rcases h with ⟨-, w, rfl, -⟩ | ⟨-, w, rfl, -⟩ | ⟨-, op, hi, -⟩ | ⟨-, w, rfl, -⟩ | ⟨-, w, rfl, -⟩ | ⟨-, d, o, w, rfl⟩
  case inr.inr.inl => exact counted_of_runs hi
  all_goals rfl

theorem lastErr_of_cause {i : Instr} {s t : State} {code : BitVec 4} (hc : cause s i code)
    (h : exec i s = .next t) : t.lastErr = true := by
  obtain ⟨a, he⟩ := exec_of_cause hc
  cases he.symm.trans h
  rfl

/-- What ERR_CLEAR leaves in STATUS, run by itself or through CMD (R152). -/
theorem status_of_runs_errClear {i : Instr} {s t : State} (hi : runs i .errClear) (h : exec i s = .next t) :
    t.lastErr = false ∧ t.errCode = 0 := by
  obtain ⟨d, he⟩ := exec_of_runs hi s
  cases he.symm.trans h
  exact ⟨rfl, rfl⟩

/-- ERRCODE changes by a rejection or by ERR_CLEAR only (R20). -/
theorem errCode_eq_of_not_cause {i : Instr} {s t : State} (h : exec i s = .next t) (hc : ∀ code, ¬cause s i code)
    (hi : ¬runs i .errClear) : t.errCode = s.errCode := by
  obtain ⟨-, -, -, -, -, -, -, -, herr, -⟩ := onlyNamedWritersWrite i s t h
  by_contra hne
  exact (herr hne).elim (fun ⟨code, hcode⟩ => hc code hcode) hi

/-- Settles O47: LAST_ERR is set where there is a cause (`cause_of_lastErr`, `lastErr_of_cause`), ERRCODE has the
writers of R20, and an uncounted operation writes neither. -/
theorem countedOperationsUpdateStatus : Obligations.CountedOperationsUpdateStatus := by
  intro i s t h
  refine ⟨fun hcnt hc => ⟨?_, errCode_eq_of_not_cause h hc⟩, fun hi => status_of_runs_errClear hi h,
    fun code hc => ⟨counted_of_cause hc, lastErr_of_cause hc h⟩, fun hcnt => ?_⟩
  · by_contra he
    obtain ⟨code, hcode⟩ := cause_of_lastErr h hcnt (eq_true_of_ne_false he)
    exact hc code hcode
  · rw [exec_uncounted hcnt h]
    exact ⟨rfl, rfl⟩

/-- Settles O50: both ends of a command's range check; OFF and WLEN writes have none. -/
theorem rangeCheckPerCommand : Obligations.RangeCheckPerCommand := fun _ d _ hl =>
  ⟨fun hr => ⟨_, exec_command_inRange d hr hl, rfl⟩, exec_command_outOfRange d,
    fun _ => ⟨⟨_, rfl, rfl⟩, _, rfl, rfl⟩⟩

/-- Settles O51: of the four ways of a step, an access that changes a recorded error runs ERR_CLEAR
(`exec_keeps_errCode`), and a reset gives ERRCODE its reset value. -/
theorem errCodeIsSticky : Obligations.ErrCodeIsSticky := by
  refine ⟨fun s t h he hne => ?_, fun i s code hc he => ?_⟩
  · rcases step_next h with rfl | ⟨a, rest, hp, h⟩ | ⟨rest, hp, rfl⟩ | ⟨a, rest, hp, rfl⟩
    · exact absurd rfl hne
    · have hi : runs (decodeAccess a) .errClear := (exec_keeps_errCode h he).resolve_left hne
      obtain ⟨-, h0⟩ := status_of_runs_errClear hi h
      exact ⟨h0, .inr (.inr ⟨a, rest, hp, hi⟩)⟩
    · exact ⟨rfl, .inl ⟨rest, hp⟩⟩
    · exact ⟨rfl, .inr (.inl ⟨a, rest, hp⟩)⟩
  · obtain ⟨a, h⟩ := exec_of_cause hc
    refine ⟨a, h.trans ?_⟩
    rw [rejected, if_neg he]

/-- Settles O52: a command whose range check passes ends with its effect, and only ERR_CLEAR's writes ERRCODE. -/
theorem mismatchIsNoRejection : Obligations.MismatchIsNoRejection := by
  intro op d s t hop hr h
  have hne : op ≠ .errClear := ne_of_mem_of_not_mem hop (by decide)
  rcases exec_command_next h with ⟨hn, -⟩ | ⟨-, rfl⟩
  · exact absurd hr hn
  · exact ⟨rfl, (commandEffect_errCode d s op).trans (if_neg hne)⟩

/-! ## The answer (spec/60_exceptions.md R173) -/

/-- Settles O48: every end of an instruction gives one answer, and only that of MISALIGNED is ERR. -/
theorem onlyMisalignedAnswersErr : Obligations.OnlyMisalignedAnswersErr := by
  intro i s t h
  cases exec_ends h with
  | mis d o w hi ht => exact ⟨0, .err, by rw [ht], by simp [hi]⟩
  | rejected c _ _ ne _ ht => exact ⟨0, .ok, by rw [ht, rejected], by simpa using ne⟩
  | cmd op d _ _ _ ne ht => exact ⟨0, .ok, by simp [ht], by simpa using ne⟩
  | ans v n _ ne _ ht => exact ⟨v, .ok, by rw [ht], by simpa using ne⟩
  | len | off | wlen | push | buf => subst t i; exact ⟨0, .ok, rfl, by simp⟩

/-! ## Priority (spec/60_exceptions.md R174) -/

/-- The step that receives a WRITE of a named register. -/
theorem step_writeReg {s : State} {a : Access} {rest : List HostEvent} (r : Reg)
    (hp : s.pending = .access a :: rest) (hd : a.dir = .write) (ho : a.offset = r.offset) :
    step s = exec (r.writeInstr a.wdata) { s with pending := rest } := by
  obtain ⟨d, o, w⟩ := a
  obtain rfl : d = .write := hd
  obtain rfl : o = r.offset := ho
  rw [step_access hp, decodeAccess_reg]

/-- Settles O49: a misaligned offset is decoded before all else, and a WRITE of CMD, LEN or PUSH makes its own checks,
CMD's in the order of R75. -/
theorem errorPriority : Obligations.ErrorPriority := by
  intro s a rest hp
  refine ⟨fun ho => ?_, fun hd ho => ⟨fun h => ?_, fun h0 h => ?_, fun op h0 h hr => ?_⟩, fun hd ho h => ?_,
    fun hd ho h => ?_⟩
  · rw [step_access hp, decodeAccess_misaligned a.dir a.wdata (beq_eq_false_iff_ne.mpr ho)]
    rfl
  · exact (step_writeReg .cmd hp hd ho).trans (exec_wrCmd_of_rsvd h _)
  · exact (step_writeReg .cmd hp hd ho).trans (exec_wrCmd_of_ne_code h0 h _)
  · exact (step_writeReg .cmd hp hd ho).trans (exec_runs_outOfRange (runs_wrCmd_iff.mpr ⟨h0, h⟩) hr)
  · exact (step_writeReg .len hp hd ho).trans (exec_wrLen_above h _)
  · exact (step_writeReg .push hp hd ho).trans (exec_wrPush_full (s := { s with pending := rest }) h _)

end Sys2Proof.Machine

/-! # Proofs of the reset family: what reset leaves, what an access it cuts short leaves, and that accesses complete -/

/-! ## The access an instruction was decoded from (spec/30_encoding.md R74) -/

namespace Sys2Proof

/-- A WRITE is known from the encoding of what it decodes to: only a READ's wdata is dropped. -/
theorem eq_of_encode_decodeAccess_write {a : Access} {o : Offset} {w : BusWord}
    (h : encode (decodeAccess a) = .bus ⟨.write, o, w⟩) : a = ⟨.write, o, w⟩ := by
  obtain ⟨-, he | ⟨o', w', -, he⟩⟩ := decodeAccess_encodesBackTo Config.bufSize_legal a
  · exact Code.bus.inj (he.symm.trans h)
  · cases he.symm.trans h

theorem decodeAccess_wellFormed (a : Access) : (decodeAccess a).wellFormed = true :=
  (decodeAccess_encodesBackTo Config.bufSize_legal a).1

theorem eq_of_decodeAccess_wrPush {a : Access} {w : BusWord} (h : decodeAccess a = .wrPush w) :
    a = ⟨.write, 0x020, w⟩ :=
  eq_of_encode_decodeAccess_write (h ▸ rfl)

theorem eq_of_decodeAccess_wrBuf {a : Access} {k : Nat} {w : BusWord} (h : decodeAccess a = .wrBuf k w) :
    a = ⟨.write, windowOffset k, w⟩ :=
  eq_of_encode_decodeAccess_write (h ▸ rfl)

end Sys2Proof

namespace Sys2Proof.Machine

open Sys2Proof.Safety

/-! ## The step of a reset (spec/70_reset_and_hazards.md R190, R191) -/

theorem step_reset {s : State} {rest : List HostEvent} (h : s.pending = .reset :: rest) :
    step s = .next { s with pending := rest }.warmReset := by
  simp [step, receive, receiveBy, h]

theorem step_resetDuring {s : State} {a : Access} {rest : List HostEvent} (h : s.pending = .resetDuring a :: rest) :
    step s = .next ({ s with pending := rest }.abandon a) := by
  simp [step, receive, receiveBy, h]

/-- Settles O1: reset by `step_reset`; ID and CFG read their constants whatever the state. -/
theorem resetLeavesSpecifiedState : Obligations.ResetLeavesSpecifiedState :=
  ⟨fun _ _ hp => step_reset hp, fun _ => ⟨rfl, rfl⟩, rfl, rfl, rfl, rfl, rfl, rfl, rfl, rfl, rfl, rfl,
    Memory.read?_nil⟩

/-- Settles O57: the state after power-up is what a reset leaves of a block whose BUF is canonical. -/
theorem resetMeetsInvariant : Obligations.ResetMeetsInvariant :=
  inv_warmReset (s := State.reset) (Memory.wf_reset Config.bufSize)

/-! ## An access cut short by reset (spec/70_reset_and_hazards.md R191) -/

/-- A torn write changes only BUF and the model's count of draws. -/
theorem State.tear_eq (s : State) (a : Nat) (bs : List Byte) :
    s.tear a bs = { s with buf := (s.tear a bs).buf, draws := (s.tear a bs).draws } := by
  induction bs generalizing s a with
  | nil => rfl
  | cons b bs ih => exact ih _ (a + 1)

/-- An abandoned access leaves what a reset alone would, but for BUF and the count of draws. -/
theorem State.abandon_eq (s : State) (a : Access) :
    s.abandon a = { s.warmReset with buf := (s.abandon a).buf, draws := (s.abandon a).draws } :=
  congrArg State.warmReset (State.tear_eq s _ _)

/-- Access `a` writes byte `b` at index `x` of BUF: as a PUSH in a buffer with room, or as one byte of a BUF window
write (R156, R157). -/
def writesByte (s : State) (a : Access) (x : Nat) (b : Byte) : Prop :=
  (a.dir = .write ∧ a.offset = 0x020 ∧ s.len.toNat < 512 ∧ x = s.len.toNat ∧ b = a.wdata.extractLsb' 0 8) ∨
  (a.dir = .write ∧ ∃ k i, k < 128 ∧ i < 4 ∧ a.offset.toNat = 0x400 + 4 * k ∧ x = 4 * k + i ∧
    b = a.wdata.extractLsb' (8 * i) 8)

theorem writesByte_push {s : State} (w : BusWord) (hl : s.len.toNat < 512) :
    writesByte s ⟨.write, 0x020, w⟩ s.len.toNat (lowByte w) := .inl ⟨rfl, rfl, hl, rfl, rfl⟩

theorem writesByte_window (s : State) {k i : Nat} (w : BusWord) (hk : windowWord k = true) (hi : i < 4) :
    writesByte s ⟨.write, windowOffset k, w⟩ (4 * k + i) (w.extractLsb' (8 * i) 8) :=
  .inr ⟨rfl, k, i, windowWord_iff.mp hk, hi, windowOffset_toNat Config.bufSize_legal hk, rfl, rfl⟩

/-- The bytes `writtenBytes` lists for an access are those the access writes, each at its index. -/
theorem writesByte_of_writtenBytes {s : State} {a : Access} {j : Nat} {b : Byte}
    (h : (writtenBytes s (decodeAccess a)).2[j]? = some b) :
    writesByte s a ((writtenBytes s (decodeAccess a)).1 + j) b := by
  have hwf := decodeAccess_wellFormed a
  cases hi : decodeAccess a with
  | wrPush w =>
    obtain rfl := eq_of_decodeAccess_wrPush hi
    by_cases hl : s.len.toNat < Config.bufSize
    · rw [hi, writtenBytes, if_pos hl, List.getElem?_singleton] at h
      split at h
      · cases h
        subst j
        exact writesByte_push w hl
      · cases h
    · rw [hi, writtenBytes, if_neg hl] at h
      cases h
  | wrBuf k w =>
    obtain rfl := eq_of_decodeAccess_wrBuf hi
    rw [hi] at h hwf
    have hj : j < 4 := (List.getElem?_eq_some_iff.mp h).1
    obtain rfl := Option.some.inj ((windowBytes_getElem? w hj).symm.trans h)
    exact writesByte_window s w hwf hj
  | _ =>
    rw [hi] at h
    cases h

/-- Each byte of BUF is old, or one the abandoned access was writing, and new. -/
theorem abandon_old_or_new (s : State) (a : Access) (x : Nat) :
    Memory.read? (s.abandon a).buf x = Memory.read? s.buf x ∨
      ∃ b, writesByte s a x b ∧ Memory.read? (s.abandon a).buf x = some b := by
  rcases State.read?_tear s (writtenBytes s (decodeAccess a)).1 x (writtenBytes s (decodeAccess a)).2 with
    h | ⟨j, rfl, b, hj, h⟩
  · exact .inl h
  · exact .inr ⟨b, writesByte_of_writtenBytes hj, h⟩

/-- Settles O2: the registers by `State.abandon_eq`, the bytes of BUF by `abandon_old_or_new`. -/
theorem resetAbandonsAccess : Obligations.ResetAbandonsAccess := by
  intro s a rest hp
  refine ⟨_, step_resetDuring hp, State.abandon_eq _ a, fun x => ?_⟩
  rcases abandon_old_or_new { s with pending := rest } a x with
    h | ⟨b, ⟨hd, ho, hl, hx, rfl⟩ | ⟨hd, k, i, hk, hi, ho, hx, rfl⟩, h⟩
  · exact .inl h
  · exact .inr (.inl ⟨hd, ho, hl, hx, h⟩)
  · exact .inr (.inr ⟨hd, k, i, hk, hi, ho, hx, h⟩)

/-! ## Every access completes (spec/70_reset_and_hazards.md R199) -/

/-- A well-formed instruction answers a next state wherever LEN <= `P_BUF_SIZE` (R29). -/
theorem exec_completes {i : Instr} {s : State} (hl : lenInBuf s) (hi : i.wellFormed = true) :
    ∃ t, exec i s = .next t :=
  (exec_stops i s).elim (fun h => absurd h.1 (not_usesIndexOutside hl hi)) And.right

/-- No instruction receives a host event: a step does (R51). -/
theorem exec_pending {i : Instr} {s t : State} (h : exec i s = .next t) : t.pending = s.pending := by
  obtain ⟨-, -, -, -, -, -, -, -, -, -, hp⟩ := onlyNamedWritersWrite i s t h
  exact hp

/-- Settles O59: what the access decodes to is well-formed, so it completes, and it is answered once. -/
theorem everyAccessCompletes : Obligations.EveryAccessCompletes := by
  intro s a rest hl hp
  obtain ⟨t, h⟩ := exec_completes (s := { s with pending := rest }) hl (decodeAccess_wellFormed a)
  obtain ⟨data, resp, hr, -⟩ := onlyMisalignedAnswersErr _ _ t h
  exact ⟨t, ⟨data, resp⟩, (step_access hp).trans h, exec_pending h, hr⟩

end Sys2Proof.Machine
